-- ==== Sys2Proof/Word.lean ====
section
/-! DEFINITION. The two sizes of datum the core has: 8-bit bytes and 32-bit unsigned words (R6, R10, R120). -/

namespace Sys2Proof

/-- A 32-bit unsigned word (R6). `x + y` on words is the core's `+32`: addition modulo `2^32` (R11, R121). -/
abbrev Word := BitVec 32

/-- An 8-bit byte (R6). -/
abbrev Byte := BitVec 8

end Sys2Proof
end

