-- ==== Sys2Proof/Syntax.lean ====
section
/-! DEFINITION. The operations of spec/opcode_table.json as syntax, one constructor per row, and the two word formats
that name them (R90): format U is the 10-bit sequencer register, format H the 37-bit host register access. -/

namespace Sys2Proof

/-- The 18 operations (R92, R95). An index operand has the width its encoding gives it (R93): four bits for LOADW,
three for SERW, six for EXPW and ROUND. The host reads carry the DATA field of their word too: it is ignored (R94). -/
inductive Instr where
  | idle
  | seed
  | frame
  | loadw (t : BitVec 4)
  | expw (t : BitVec 6)
  | initv
  | round (t : BitVec 6)
  | fold
  | serw (i : BitVec 3)
  | finish
  | wrctrl (data : Word)
  | rdctrl (data : Word)
  | rdstatus (data : Word)
  | wrstatus (data : Word)
  | wrlen (data : Word)
  | rdlen (data : Word)
  | rdrsvd (reg : BitVec 4) (data : Word)
  | wrrsvd (reg : BitVec 4) (data : Word)
  deriving DecidableEq, Repr

/-- The sequencer register `SEQ = {UOP[3:0], IDX[5:0]}` (R23, R91), kept as its two fields. -/
structure Seq where
  uop : BitVec 4
  idx : BitVec 6
  deriving DecidableEq, Repr

/-- An encoded operation. The agent decides the format (R90): `u` is a sequencer word, `h` a host access. -/
inductive Code where
  | u (w : BitVec 10)
  | h (w : BitVec 37)
  deriving DecidableEq, Repr

end Sys2Proof
end

