-- ==== Sys2Proof/WellFormed.lean ====
section
/-! DEFINITION. The index and register ranges of R93 and R95 that the operand widths do not already enforce. -/

namespace Sys2Proof

/-- EXPW takes 16..63 (R93); RDRSVD and WRRSVD stand for registers 3..15 only (R95). LOADW's and SERW's ranges are
their field widths, and every other operation is well formed as it stands. -/
def Instr.wellFormed : Instr → Bool
  | .expw t => decide (16 ≤ t.toNat)
  | .rdrsvd reg _ => decide (3 ≤ reg.toNat)
  | .wrrsvd reg _ => decide (3 ≤ reg.toNat)
  | .idle | .seed | .frame | .loadw _ | .initv | .round _ | .fold | .serw _ | .finish => true
  | .wrctrl _ | .rdctrl _ | .rdstatus _ | .wrstatus _ | .wrlen _ | .rdlen _ => true

end Sys2Proof
end

