-- ==== Sys2Proof/Decode.lean ====
section
/-! DEFINITION. Decoding and encoding of the two formats (R91 to R95, R97). Decoding is total: a reserved sequencer word
is rejected by name, and every host word decodes (R95, R98). -/

namespace Sys2Proof

/-- The sequencer word of a position: `UOP` in bits 9:6, `IDX` in bits 5:0 (R91). -/
def Seq.word (q : Seq) : BitVec 10 := q.uop ++ q.idx

/-- The position a sequencer word names (R91). -/
def Seq.ofWord (w : BitVec 10) : Seq := ⟨w.extractLsb' 6 4, w.extractLsb' 0 6⟩

/-! The positions of R93, by name; encoding and the successor function R221 both use them. -/

/-- `(IDLE, 0)` (R92, R93). -/
def seqIdle : Seq := ⟨0, 0⟩
/-- `(SEED, 0)` (R92, R93). -/
def seqSeed : Seq := ⟨1, 0⟩
/-- `(FRAME, 0)` (R92, R93). -/
def seqFrame : Seq := ⟨2, 0⟩
/-- `(LOADW, t)`, pattern `0011 00tttt` (R93). -/
def seqLoadw (t : BitVec 4) : Seq := ⟨3, t.setWidth 6⟩
/-- `(EXPW, t)`, pattern `0100 tttttt` (R93). -/
def seqExpw (t : BitVec 6) : Seq := ⟨4, t⟩
/-- `(INITV, 0)` (R92, R93). -/
def seqInitv : Seq := ⟨5, 0⟩
/-- `(ROUND, t)`, pattern `0110 tttttt` (R93). -/
def seqRound (t : BitVec 6) : Seq := ⟨6, t⟩
/-- `(FOLD, 0)` (R92, R93). -/
def seqFold : Seq := ⟨7, 0⟩
/-- `(SERW, i)`, pattern `1000 000iii` (R93). -/
def seqSerw (i : BitVec 3) : Seq := ⟨8, i.setWidth 6⟩
/-- `(FINISH, 0)` (R92, R93). -/
def seqFinish : Seq := ⟨9, 0⟩

/-- Why a sequencer word names no operation (R97): no step is defined for it. -/
inductive DecodeError where
  /-- `UOP` is one of the codes 10 to 15 (R92). -/
  | reservedUop (q : Seq)
  /-- `IDX` is outside the range R93 gives its `UOP`. -/
  | idxOutOfRange (q : Seq)
  deriving DecidableEq, Repr

/-- `ok`, the operation a position names when its index is in range (R93), else the rejection. -/
def checkIdx (inRange : Bool) (i : Instr) (q : Seq) : Except DecodeError Instr :=
  if inRange then .ok i else .error (.idxOutOfRange q)

/-- The micro-operation a sequencer position names: codes of R92, index ranges of R93, everything else rejected (R97). -/
def decodeSeq (q : Seq) : Except DecodeError Instr :=
  match q.uop.toNat with
  | 0 => checkIdx (q.idx.toNat = 0) .idle q
  | 1 => checkIdx (q.idx.toNat = 0) .seed q
  | 2 => checkIdx (q.idx.toNat = 0) .frame q
  | 3 => checkIdx (q.idx.toNat < 16) (.loadw (q.idx.setWidth 4)) q
  | 4 => checkIdx (16 ≤ q.idx.toNat) (.expw q.idx) q
  | 5 => checkIdx (q.idx.toNat = 0) .initv q
  | 6 => .ok (.round q.idx)
  | 7 => checkIdx (q.idx.toNat = 0) .fold q
  | 8 => checkIdx (q.idx.toNat < 8) (.serw (q.idx.setWidth 3)) q
  | 9 => checkIdx (q.idx.toNat = 0) .finish q
  | _ => .error (.reservedUop q)

/-- The host operation of a format-H word: `WR` in bit 36, `REG` in 35:32, `DATA` in 31:0 (R94), by the map of R95. -/
def decodeHost (w : BitVec 37) : Instr :=
  let reg := w.extractLsb' 32 4
  let data := w.extractLsb' 0 32
  match w.getLsbD 36, reg.toNat with
  | true, 0 => .wrctrl data
  | false, 0 => .rdctrl data
  | false, 1 => .rdstatus data
  | true, 1 => .wrstatus data
  | true, 2 => .wrlen data
  | false, 2 => .rdlen data
  | false, _ => .rdrsvd reg data
  | true, _ => .wrrsvd reg data

/-- Decoding of either format (R90). -/
def decode : Code → Except DecodeError Instr
  | .u w => decodeSeq (Seq.ofWord w)
  | .h w => .ok (decodeHost w)

/-- The format-H word `{WR, REG, DATA}` (R94). -/
def hostWord (wr : Bool) (reg : BitVec 4) (data : Word) : BitVec 37 := BitVec.ofBool wr ++ reg ++ data

/-- The encoding of an operation (R93, R95). -/
def encode : Instr → Code
  | .idle => .u seqIdle.word
  | .seed => .u seqSeed.word
  | .frame => .u seqFrame.word
  | .loadw t => .u (seqLoadw t).word
  | .expw t => .u (seqExpw t).word
  | .initv => .u seqInitv.word
  | .round t => .u (seqRound t).word
  | .fold => .u seqFold.word
  | .serw i => .u (seqSerw i).word
  | .finish => .u seqFinish.word
  | .wrctrl d => .h (hostWord true 0 d)
  | .rdctrl d => .h (hostWord false 0 d)
  | .rdstatus d => .h (hostWord false 1 d)
  | .wrstatus d => .h (hostWord true 1 d)
  | .wrlen d => .h (hostWord true 2 d)
  | .rdlen d => .h (hostWord false 2 d)
  | .rdrsvd reg d => .h (hostWord false reg d)
  | .wrrsvd reg d => .h (hostWord true reg d)

/-- The word of `nbits` bits as a code: up to two bytes hold a format-U word (10 bits), more hold a format-H word
(37 bits); a value with a bit set above the format's width is the word of no operation (log 14). -/
def tableCode (nbits w : Nat) : Option Code :=
  if nbits ≤ 16 then
    if w < 1024 then some (.u (BitVec.ofNat 10 w)) else none
  else
    if w < 137438953472 then some (.h (BitVec.ofNat 37 w)) else none

/-- The instruction the decoder reads from the bits `w` of a row of spec/opcode_table.json. -/
def decodeTableWord (nbits w : Nat) : Option Instr :=
  match tableCode nbits w with
  | some c => (decode c).toOption
  | none => none

end Sys2Proof
end

