-- ==== Sys2Proof/Machine/State.lean ====
section
/-! DEFINITION. The state of the machine (R20), the host's two buffers (R35, R36), what the outside does next, the reasons
a step can stop, and the state after reset (R39). -/

namespace Sys2Proof.Machine

/-- A byte space as a list of (index, byte) cells, indices strictly rising; `Memory.wf` in Machine/Ops.lean says so.
What an unlisted index holds is not recorded (log 4). -/
abbrev Memory := List Host.Cell

/-- The eight working variables `a..h` (R22). -/
structure Vars where
  a : Word
  b : Word
  c : Word
  d : Word
  e : Word
  f : Word
  g : Word
  h : Word
  deriving DecidableEq, Repr

/-- A window of a binding: the indices `first .. first + size - 1` stand at the platform addresses `base ..` in order, and
the platform permits the core's accesses to them or not (R9, R68). -/
structure Window where
  first : Nat
  size : Nat
  base : Nat
  permitted : Bool
  deriving DecidableEq, Repr

/-- MSG_BINDING or DIG_BINDING: a map from indices to platform addresses (R9), the first window that covers an index
decides. Any map of finitely many indices is such a list (log 19). -/
abbrev Binding := List Window

/-- REG_BINDING: on which of the platform's buses and where the host registers stand, how many bytes an access on that bus
carries, and in what order it gives the bytes of a register (R9, R64; D23, U17; log 19). -/
structure RegBinding where
  bus : Nat
  base : Nat
  stride : Nat
  width : Nat
  bigEndian : Bool
  deriving DecidableEq, Repr

/-- One turn: which agent moves next, and, when it is not the core, what it does (R237, R243, R266, R290, R303; log 1). -/
inductive Turn where
  /-- The core executes the micro-operation `SEQ` names (R23). -/
  | core
  /-- The host performs the register access of a format-H word (R94, R237). -/
  | access (w : BitVec 37)
  /-- The host makes bus accesses, each with the bytes it carries, one after another from a platform address on: a register
  access where REG_BINDING puts a register there and they exchange it whole (R9, R64; log 19); a read ignores the bytes
  (R94) and answers with the whole word. -/
  | bus (wr : Bool) (bus address : Nat) (accesses : List (List Byte))
  /-- `ST MSG[i], b` (R243). -/
  | storeMsg (i : BitVec 32) (b : Byte)
  /-- `LD DIG[j]` (R243). -/
  | loadDig (j : BitVec 5)
  /-- The host stores into its own digest buffer (R303). -/
  | storeDig (j : BitVec 5) (b : Byte)
  /-- The external reset is applied (R290). -/
  | reset
  deriving DecidableEq, Repr

/-- The state: R20's elements under the spec's names, the two host buffers, the three bindings (R9), and the
model's own fields for what the host gets back and does next. -/
structure State where
  /-- Hash state `H[0..7]` (R21). -/
  H : Vector Word 8
  /-- Working variables `a..h` (R22). -/
  v : Vars
  /-- Message schedule `W[0..63]` (R31). -/
  W : Vector Word 64
  /-- Block buffer `BLOCK[0..63]` (R32). -/
  BLOCK : Vector Byte 64
  /-- Latched length (R28). -/
  L : Word
  /-- Block counter (R29). -/
  N : BitVec 27
  /-- Sequencer position (R23). -/
  SEQ : Seq
  /-- The host's length register (R27). -/
  LEN : Word
  /-- Status flag BUSY (R24, R26). -/
  BUSY : Bool
  /-- Status flag DONE (R24, R26). -/
  DONE : Bool
  /-- Message space, owned by the host (R35); an unlisted index holds its power-on byte (log 4). -/
  MSG : Memory
  /-- Digest space, owned by the host (R36). -/
  DIG : Memory
  /-- MSG_BINDING: where message indices stand, and which the platform lets the core read (R9, R61, R300 (b); log 19). -/
  msgBinding : Binding
  /-- DIG_BINDING: where digest indices stand, and which the platform lets the core write (R9, R300 (c); log 19). -/
  digBinding : Binding
  /-- REG_BINDING (R9; log 19). -/
  regBinding : RegBinding
  /-- Which contents the message buffer had at power-on (the model's own field, log 4). -/
  powerOn : Nat
  /-- The value the last register read returned to the host (R94; the model's own field, log 12). -/
  readData : Word
  /-- The byte the host's last `LD DIG[j]` returned (R243; the model's own field, log 12). -/
  loadData : Byte
  /-- The turns that come next; when there is none, the turn is the core's (the model's own field, log 1). -/
  turns : List Turn
  /-- Bit `j`: the host broke R301 or R303 in this invocation, digest byte `j` is unspecified (own field, log 8). -/
  digTaint : BitVec 32
  /-- How many free values have been drawn (the model's own field, log 7). -/
  draws : Nat
  deriving DecidableEq, Repr

/-- The core has no fault of its own (R260); this is the one stuck case the spec names. -/
inductive Fault where
  /-- Raised by FRAME on the core's turn when the platform does not admit a message read: the core has no step and stays at
  (FRAME, 0) with BUSY = 1 (R69, R157, R261). Safe: the machine stops where the core would wait for ever. -/
  | stuckMessageRead
  deriving DecidableEq, Repr

/-- The situations to which the spec gives no meaning. -/
inductive Refusal where
  /-- Raised by exec for an instruction without a meaning; no arm is in this case. Safe: the machine stops. -/
  | notModelled (mnemonic : String)
  /-- Raised by the core's turn (and by EXPW with an index below 16) at a sequencer word outside the 142 of R93: R97 says
  to give it no step and mark it refused. Safe: such a word is unreachable. -/
  | unreachableSequencerWord (q : Seq)
  /-- Raised by FRAME and FOLD when `N` is not below `NBLK(L)`, which R29, R157 and R205 say cannot occur. Safe. -/
  | blockBeyondLast
  /-- Raised by WRCTRL when a START would be accepted and the digest buffer is not writable: R300 (c) gives such a launch no
  meaning. Safe: the machine stops. -/
  | digestNotWritable
  /-- Raised by WRCTRL when a START would be accepted and the digest buffer overlaps the message: R302 says to refuse the
  launch. Safe: the machine stops. -/
  | buffersOverlap
  deriving DecidableEq, Repr

/-- The machine right after reset (R39): SEQ, BUSY, DONE and LEN as R39 states them. The hidden registers, which R39
leaves unspecified, hold zero (DESIGN CHOICE, log 5); nothing is listed in the buffers (log 4); the bindings put all
message indices at address 0, the digest after them and the registers after that (DESIGN CHOICE, log 19). -/
def State.reset : State where
  H := Vector.replicate 8 0
  v := ⟨0, 0, 0, 0, 0, 0, 0, 0⟩
  W := Vector.replicate 64 0
  BLOCK := Vector.replicate 64 0
  L := 0
  N := 0
  SEQ := seqIdle
  LEN := 0
  BUSY := false
  DONE := false
  MSG := []
  DIG := []
  msgBinding := [⟨0, 4294967296, 0, true⟩]
  digBinding := [⟨0, 32, 4294967296, true⟩]
  regBinding := ⟨0, 4294967328, 4, 4, false⟩
  powerOn := 0
  readData := 0
  loadData := 0
  turns := []
  digTaint := 0
  draws := 0

end Sys2Proof.Machine
end

