-- ==== Sys2Proof/Config.lean ====
section
/-! DEFINITION. The free values: what the spec leaves unspecified after the machine goes on. Each is a constant without
a body, so that no proof can learn anything about it; it is applied to `State.draws`, a counter that every draw advances. -/

namespace Sys2Proof.Config

/-- The byte the host's buffer holds at message index `i` when no store the model records put one there: the message is
the host's (R35), and no rule gives its contents at power-on. The first argument is `State.powerOn` (log 4). -/
opaque powerOnByte : Nat → Nat → Byte

/-- A byte the host loads from the digest space when its contents are unspecified: `DONE = 0` (R303, U8) or a breach of
R301 or R303 during the invocation (U6, U9). Drawn afresh at each load (log 7, log 8). -/
opaque freeByte : Nat → Byte

/-- The hash state `H` after a reset (R39, R290, U13; log 6). -/
opaque freeHash : Nat → Vector Word 8

/-- The working variables `a..h` after a reset (R39, R290, U13; log 6). -/
opaque freeVars : Nat → Vector Word 8

/-- The message schedule `W` after a reset (R39, R290, U13; log 6). -/
opaque freeSchedule : Nat → Vector Word 64

/-- The block buffer `BLOCK` after a reset (R39, R290, U13; log 6). -/
opaque freeBlock : Nat → Vector Byte 64

/-- The latched length `L` after a reset (R39, R290, U13; log 6). -/
opaque freeLength : Nat → Word

/-- The block counter `N` after a reset (R39, R290, U13; log 6). -/
opaque freeCounter : Nat → BitVec 27

end Sys2Proof.Config
end

