-- ==== Sys2Proof/Machine/Ops.lean ====
section
/-! DEFINITION. The named operations over registers and the two byte spaces. The core has no exception to take and none to
return from (R260, R267, R268), so there is no exception entry here. -/

namespace Sys2Proof.Machine

/-! ## Arrays of 64 and of 8 -/

/-- Element `t` of a 64-element array, `t` a six-bit index (R12, R96). -/
def sel64 {α : Type} (x : Vector α 64) (t : BitVec 6) : α := x[t.toNat]'t.isLt

/-- The array with element `t` replaced (R12). -/
def upd64 {α : Type} (x : Vector α 64) (t : BitVec 6) (y : α) : Vector α 64 := x.set t.toNat y t.isLt

/-- Element `i` of an eight-element array (R12). -/
def sel8 {α : Type} (x : Vector α 8) (i : BitVec 3) : α := x[i.toNat]'i.isLt

/-- The eight words `a..h` as an array in state order (R22). -/
def varsToVector (v : Vars) : Vector Word 8 := #v[v.a, v.b, v.c, v.d, v.e, v.f, v.g, v.h]

/-- `a` from element 0, ..., `h` from element 7 (R22). -/
def varsOfVector (x : Vector Word 8) : Vars := ⟨x[0], x[1], x[2], x[3], x[4], x[5], x[6], x[7]⟩

/-! ## Byte spaces -/

/-- The byte listed at an index, if any. -/
def Memory.lookup : Memory → Nat → Option Byte
  | [], _ => none
  | (a, b) :: m, i => if a = i then some b else Memory.lookup m i

/-- The space with byte `b` at index `i`, in canonical order. -/
def Memory.write : Memory → Nat → Byte → Memory
  | [], i, b => [(i, b)]
  | (a, c) :: m, i, b =>
    if i < a then (i, b) :: (a, c) :: m
    else if i = a then (i, b) :: m
    else (a, c) :: Memory.write m i b

/-- Every index listed is at least `lo` and below `size`, and indices rise strictly. -/
def Memory.wfFrom (size : Nat) : Nat → Memory → Bool
  | _, [] => true
  | lo, (a, _) :: m => decide (lo ≤ a) && decide (a < size) && Memory.wfFrom size (a + 1) m

/-- The canonical form of a space of `size` indices (R35, R36). -/
def Memory.wf (size : Nat) (m : Memory) : Bool := Memory.wfFrom size 0 m

/-! ## Bindings (R9, log 19) -/

/-- The window that decides for an index. -/
def Binding.window (b : Binding) (i : Nat) : Option Window :=
  b.find? fun w => decide (w.first ≤ i) && decide (i < w.first + w.size)

/-- The platform address of an index, where the binding gives one. -/
def Binding.address (b : Binding) (i : Nat) : Option Nat :=
  (Binding.window b i).map fun w => w.base + (i - w.first)

/-- The platform admits the core's access to an index (R61, R68). -/
def Binding.permits (b : Binding) (i : Nat) : Bool :=
  match Binding.window b i with
  | some w => w.permitted
  | none => false

/-- The indices that stand at a platform address. -/
def Binding.indicesAt (b : Binding) (a : Nat) : List Nat :=
  (b.map fun w => w.first + (a - w.base)).filter fun i => decide (Binding.address b i = some a)

/-- Message index `i` and digest index `j` stand at the same platform address (R302). -/
def sharesByte (s : State) (i j : Nat) : Bool :=
  match Binding.address s.msgBinding i with
  | some a => decide (Binding.address s.digBinding j = some a)
  | none => false

/-- The register that stands at a platform address, if any (R67). -/
def RegBinding.register (b : RegBinding) (a : Nat) : Option (BitVec 4) :=
  ((List.range 16).map (BitVec.ofNat 4)).find? fun r => decide (b.base + b.stride * r.toNat = a)

/-! ## Reading and writing the byte spaces -/

/-- The message byte at index `i`: the listed one, else the one the buffer held at power-on (log 4). -/
def messageOf (p : Nat) (m : Memory) (i : Nat) : Byte := (Memory.lookup m i).getD (Config.powerOnByte p i)

/-- `MemRead(MSG, i, 1)`: the byte, or nothing where the platform does not admit the access (R61). -/
def memReadMsg (s : State) (i : Nat) : Option Byte :=
  if Binding.permits s.msgBinding i then some (messageOf s.powerOn s.MSG i) else none

/-- `MemWrite(DIG, j, 1, b)`: sets digest byte `j` and changes nothing else (R62). -/
def memWriteDig (j : BitVec 5) (b : Byte) (s : State) : State :=
  { s with DIG := Memory.write s.DIG j.toNat b }

/-! ## Registers -/

/-- `SEQ <- q` (R12). -/
def setSEQ (q : Seq) (s : State) : State := { s with SEQ := q }

/-- A register read answers with the value it returns to the host (R94). -/
def returnToHost (x : Word) (s : State) : State := { s with readData := x }

/-- The micro-operation `SEQ` names (R23): the core fetches nothing, its position is its next operation. -/
def currentOperation (s : State) : Except DecodeError Instr := decodeSeq s.SEQ

end Sys2Proof.Machine
end

