-- ==== Sys2Proof/Machine/WordFunctions.lean ====
section
/-! DEFINITION. The pure word functions of spec file 40: SHR, ROTR, the round and schedule functions, and big-endian
packing. None writes state, sets a flag or can fail (R120). -/

namespace Sys2Proof.Machine

/-- Logical shift right (R123). -/
def shr (x : Word) (n : Nat) : Word := x >>> n

/-- Rotate right (R124): bit `i` of the result is bit `(i + n) mod 32` of `x`. -/
def rotr (x : Word) (n : Nat) : Word := (x >>> n) ||| (x <<< (32 - n))

/-- `CH(e, f, g) = (e AND f) XOR ((NOT e) AND g)` (R125). -/
def ch (e f g : Word) : Word := (e &&& f) ^^^ (~~~e &&& g)

/-- `MAJ(a, b, c) = (a AND b) XOR (a AND c) XOR (b AND c)` (R126). -/
def maj (a b c : Word) : Word := (a &&& b) ^^^ (a &&& c) ^^^ (b &&& c)

/-- `BSIG0`, rotations by 2, 13, 22 (R127). -/
def bsig0 (x : Word) : Word := rotr x 2 ^^^ rotr x 13 ^^^ rotr x 22

/-- `BSIG1`, rotations by 6, 11, 25 (R128). -/
def bsig1 (x : Word) : Word := rotr x 6 ^^^ rotr x 11 ^^^ rotr x 25

/-- `SSIG0`, rotations by 7, 18 and shift by 3 (R129; the exclusive OR: log 13). -/
def ssig0 (x : Word) : Word := rotr x 7 ^^^ rotr x 18 ^^^ shr x 3

/-- `SSIG1`, rotations by 17, 19 and shift by 10 (R130; the exclusive OR: log 13). -/
def ssig1 (x : Word) : Word := rotr x 17 ^^^ rotr x 19 ^^^ shr x 10

/-- `BE32(b0, b1, b2, b3)`: the first byte is the most significant (R13, R131). -/
def be32 (b0 b1 b2 b3 : Byte) : Word := b0 ++ b1 ++ b2 ++ b3

/-- `BYTE_k(w) = w[31-8k : 24-8k]` (R13, R131). -/
def byteOf (w : Word) (k : BitVec 2) : Byte := w.extractLsb' (24 - 8 * k.toNat) 8

/-- `BE64_k(x) = x[63-8k : 56-8k]` for `k` in 0..7 (R13). -/
def be64 (k : Nat) (x : BitVec 64) : Byte := x.extractLsb' (56 - 8 * k) 8

end Sys2Proof.Machine
end

