-- ==== Sys2Proof/Machine/Operands.lean ====
section
/-! DEFINITION. The operand forms (R96): the index `IDX`, which each operation scales itself, and the DATA field of a host
write. -/

namespace Sys2Proof.Machine

/-- Block byte `4t + k`, the bytes LOADW `t` reads (R96, R181). -/
def blockIndex (t : BitVec 4) (k : BitVec 2) : BitVec 6 := t ++ k

/-- Digest index `4i + k`, the byte `k` of word `i` that SERW `i` writes (R96, R232). -/
def digestIndex (i : BitVec 3) (k : BitVec 2) : BitVec 5 := i ++ k

/-- The four block bytes of LOADW `t` as a big-endian word (R181). -/
def loadWord (block : Vector Byte 64) (t : BitVec 4) : Word :=
  be32 (sel64 block (blockIndex t 0)) (sel64 block (blockIndex t 1))
    (sel64 block (blockIndex t 2)) (sel64 block (blockIndex t 3))

/-- The sum EXPW `t` forms from `W[t-16]`, `W[t-15]`, `W[t-7]`, `W[t-2]`, for `t` in 16..63 (R182). -/
def expandWord (w : Vector Word 64) (t : BitVec 6) : Word :=
  sel64 w (t - 16) + ssig0 (sel64 w (t - 15)) + sel64 w (t - 7) + ssig1 (sel64 w (t - 2))

/-- The START bit of a value written to CTRL: bit 0, the others are ignored (R25, R239). -/
def startBit (data : Word) : Bool := data.getLsbD 0

end Sys2Proof.Machine
end

