-- ==== Sys2Proof/Machine/Flags.lean ====
section
/-! DEFINITION. The two status flags (R24). There are no condition codes: no arithmetic operation sets a flag. -/

namespace Sys2Proof.Machine

/-- The value of STATUS: `2 * DONE + BUSY`, bits 31:2 zero (R26, R95, R240). -/
def statusWord (s : State) : Word := (0 : BitVec 30) ++ BitVec.ofBool s.DONE ++ BitVec.ofBool s.BUSY

/-- Launch premise R300 (c): the core may write all 32 digest indices through DIG_BINDING. -/
def digWritable (s : State) : Bool := (List.range 32).all (Binding.permits s.digBinding)

/-- A digest byte stands at the platform address of a message byte below `LEN` (R302). -/
def launchOverlaps (s : State) : Bool :=
  (List.range 32).any fun j =>
    match Binding.address s.digBinding j with
    | some a => (Binding.indicesAt s.msgBinding a).any fun i => decide (i < s.LEN.toNat)
    | none => false

/-- The accepted START (R239): latches the length, raises BUSY, lowers DONE, starts the sequencer at SEED. No digest byte
is marked by a breach yet (log 8). -/
def acceptStart (s : State) : State :=
  { s with L := s.LEN, BUSY := true, DONE := false, SEQ := seqSeed, digTaint := 0 }

/-- The flags after FINISH (R234): BUSY and DONE change in one step (R70). -/
def finishFlags (s : State) : State := { s with BUSY := false, DONE := true }

end Sys2Proof.Machine
end

