-- ==== Sys2Proof/Machine/Padding.lean ====
section
/-! DEFINITION. Message padding and block framing (spec file 41): the quantities p, T, BITLEN, NBLK, the padded stream, and
FRAME. All lengths are natural numbers, so that nothing wraps at `2^32` (R157). -/

namespace Sys2Proof.Machine

/-- `p(L)`, the number of zero bytes (R150). -/
def zeroCount (len : Nat) : Nat := (119 - len % 64) % 64

/-- `T(L) = L + 1 + p(L) + 8` (R151). -/
def paddedLength (len : Nat) : Nat := len + 1 + zeroCount len + 8

/-- `BITLEN(L)`: the length shifted left by 3 inside 64 bits (R152). -/
def bitLength (len : Word) : BitVec 64 := len.setWidth 64 <<< 3

/-- `NBLK(L) = T(L) / 64` (R153). -/
def blockCount (len : Nat) : Nat := paddedLength len / 64

/-- The padded stream `P(L, M, i)` (R154). -/
def paddedByte (len : Word) (msg : Nat → Byte) (i : Nat) : Byte :=
  if i < len.toNat then msg i
  else if i = len.toNat then 0x80
  else if i < paddedLength len.toNat - 8 then 0x00
  else be64 (i - (paddedLength len.toNat - 8)) (bitLength len)

/-- Block `n` of the padded stream: bytes `64n .. 64n + 63` (R156). -/
def paddedBlock (len : Word) (msg : Nat → Byte) (n : Nat) : Vector Byte 64 :=
  Vector.ofFn fun j => paddedByte len msg (64 * n + j.val)

/-- The message indices FRAME reads for block `n`, in order: those below `L` among `64n .. 64n + 63` (R157, R66). -/
def readsOfBlock (len n : Nat) : List Nat :=
  ((List.range 64).map fun j => 64 * n + j).filter fun i => decide (i < len)

/-- The platform admits every read that FRAME issues for block `N` (R61, R69). -/
def frameAdmitted (s : State) : Bool :=
  (readsOfBlock s.L.toNat s.N.toNat).all fun i => (memReadMsg s i).isSome

/-- The block FRAME writes (R157). -/
def framedBlock (s : State) : Vector Byte 64 := paddedBlock s.L (messageOf s.powerOn s.MSG) s.N.toNat

/-- FRAME (R157): one step for all 64 bytes. Stuck where a read is not admitted (R69; log 3); past the last block, which
cannot occur, refused (log 11). -/
def execFrame (s : State) : Host.Outcome State Fault Refusal :=
  if blockCount s.L.toNat ≤ s.N.toNat then .refused .blockBeyondLast
  else if frameAdmitted s then .next (setSEQ (seqLoadw 0) { s with BLOCK := framedBlock s })
  else .fault .stuckMessageRead

end Sys2Proof.Machine
end

