-- ==== Sys2Proof/Machine/Schedule.lean ====
section
/-! DEFINITION. The message-schedule expander (spec file 42): LOADW and EXPW. -/

namespace Sys2Proof.Machine

/-- LOADW `t` (R181): schedule word `t` from the block, big-endian; then LOADW `t + 1`, after 15 EXPW 16 (R221). -/
def execLoadw (t : BitVec 4) (s : State) : Host.Outcome State Fault Refusal :=
  .next (setSEQ (if t.toNat < 15 then seqLoadw (t + 1) else seqExpw 16)
    { s with W := upd64 s.W (t.setWidth 6) (loadWord s.BLOCK t) })

/-- EXPW `t` (R182): schedule word `t` from four earlier words; then EXPW `t + 1`, after 63 INITV (R221). An index below 16
is no legal word (R93) and has no step (R97; log 10). -/
def execExpw (t : BitVec 6) (s : State) : Host.Outcome State Fault Refusal :=
  if t.toNat < 16 then .refused (.unreachableSequencerWord (seqExpw t))
  else
    .next (setSEQ (if t.toNat < 63 then seqExpw (t + 1) else seqInitv)
      { s with W := upd64 s.W t (expandWord s.W t) })

end Sys2Proof.Machine
end

