-- ==== Sys2Proof/Machine/Rounds.lean ====
section
/-! DEFINITION. The compression round unit (spec file 43): INITV, ROUND and FOLD. -/

namespace Sys2Proof.Machine

/-- `RND(v, k, w)` (R203): the eight new values, all from the old ones (R202). -/
def rnd (v : Vars) (k w : Word) : Vars :=
  let t1 := v.h + bsig1 v.e + ch v.e v.f v.g + k + w
  let t2 := bsig0 v.a + maj v.a v.b v.c
  { a := t1 + t2, b := v.a, c := v.b, d := v.c, e := v.d + t1, f := v.e, g := v.f, h := v.g }

/-- The working variables added into the hash state, word by word, modulo `2^32` (R205). -/
def foldHash (x : Vector Word 8) (v : Vars) : Vector Word 8 :=
  #v[x[0] + v.a, x[1] + v.b, x[2] + v.c, x[3] + v.d, x[4] + v.e, x[5] + v.f, x[6] + v.g, x[7] + v.h]

/-- INITV (R201): the hash state copied into the working variables; then ROUND 0. -/
def execInitv (s : State) : Host.Outcome State Fault Refusal :=
  .next (setSEQ (seqRound 0) { s with v := varsOfVector s.H })

/-- ROUND `t` (R202) with `K[t]` and `W[t]` (R204); then ROUND `t + 1`, after 63 FOLD (R221). -/
def execRound (t : BitVec 6) (s : State) : Host.Outcome State Fault Refusal :=
  .next (setSEQ (if t.toNat < 63 then seqRound (t + 1) else seqFold)
    { s with v := rnd s.v (sel64 K t) (sel64 s.W t) })

/-- FOLD (R205): adds the working variables into the hash state and advances the block counter; then FRAME while blocks
remain, else SERW 0. Past the last block, which cannot occur, refused (log 11). -/
def execFold (s : State) : Host.Outcome State Fault Refusal :=
  if blockCount s.L.toNat ≤ s.N.toNat then .refused .blockBeyondLast
  else
    .next (setSEQ (if s.N.toNat + 1 < blockCount s.L.toNat then seqFrame else seqSerw 0)
      { s with H := foldHash s.H s.v, N := s.N + 1 })

end Sys2Proof.Machine
end

