-- ==== Sys2Proof/Machine/Driver.lean ====
section
/-! DEFINITION. The driver and the digest serializer (spec file 44, sections 1 and 2): IDLE, SEED, SERW and FINISH. -/

namespace Sys2Proof.Machine

/-- IDLE (R220): the core waits. Its turn passes and nothing changes (log 2). -/
def execIdle (s : State) : Host.Outcome State Fault Refusal := .next s

/-- SEED (R222): the hash state becomes the seed constants, the block counter 0; then FRAME. -/
def execSeed (s : State) : Host.Outcome State Fault Refusal :=
  .next (setSEQ seqFrame { s with H := IV, N := 0 })

/-- The four digest writes of SERW `i`, in ascending order of index (R232). -/
def serializeWord (i : BitVec 3) (s : State) : State :=
  memWriteDig (digestIndex i 3) (byteOf (sel8 s.H i) 3)
    (memWriteDig (digestIndex i 2) (byteOf (sel8 s.H i) 2)
      (memWriteDig (digestIndex i 1) (byteOf (sel8 s.H i) 1)
        (memWriteDig (digestIndex i 0) (byteOf (sel8 s.H i) 0) s)))

/-- SERW `i` (R232): hash-state word `i` into the digest space, big-endian; then SERW `i + 1`, after 7 FINISH (R221). -/
def execSerw (i : BitVec 3) (s : State) : Host.Outcome State Fault Refusal :=
  .next (setSEQ (if i.toNat < 7 then seqSerw (i + 1) else seqFinish) (serializeWord i s))

/-- FINISH (R234): lowers BUSY, raises DONE, and the core is idle. -/
def execFinish (s : State) : Host.Outcome State Fault Refusal := .next (setSEQ seqIdle (finishFlags s))

end Sys2Proof.Machine
end

