-- ==== Sys2Proof/Machine/HostOps.lean ====
section
/-! DEFINITION. The host register accesses (spec file 44, section 3). Each is one atomic step (R237), allowed at any time
(R270), and none traps (R260). -/

namespace Sys2Proof.Machine

/-- WRCTRL (R239): with bit 0 set and the core idle the START is accepted; otherwise nothing happens. An accepted launch
whose digest buffer is not writable (R300 (c)) or overlaps the message (R302) is refused, as those rules say (log 9). -/
def execWrctrl (data : Word) (s : State) : Host.Outcome State Fault Refusal :=
  if startBit data && !s.BUSY then
    if !digWritable s then .refused .digestNotWritable
    else if launchOverlaps s then .refused .buffersOverlap
    else .next (acceptStart s)
  else .next s

/-- RDCTRL (R242): returns 0. -/
def execRdctrl (_data : Word) (s : State) : Host.Outcome State Fault Refusal := .next (returnToHost 0 s)

/-- RDSTATUS (R240): returns `2 * DONE + BUSY`. -/
def execRdstatus (_data : Word) (s : State) : Host.Outcome State Fault Refusal :=
  .next (returnToHost (statusWord s) s)

/-- WRSTATUS (R242): ignored. -/
def execWrstatus (_data : Word) (s : State) : Host.Outcome State Fault Refusal := .next s

/-- WRLEN (R238): `LEN <- DATA`, busy or not; `L` is not touched (R27). -/
def execWrlen (data : Word) (s : State) : Host.Outcome State Fault Refusal := .next { s with LEN := data }

/-- RDLEN (R241): returns `LEN`. -/
def execRdlen (_data : Word) (s : State) : Host.Outcome State Fault Refusal := .next (returnToHost s.LEN s)

/-- RDRSVD (R242): a reserved register reads 0. -/
def execRdrsvd (_reg : BitVec 4) (_data : Word) (s : State) : Host.Outcome State Fault Refusal :=
  .next (returnToHost 0 s)

/-- WRRSVD (R242): a write to a reserved register is ignored. -/
def execWrrsvd (_reg : BitVec 4) (_data : Word) (s : State) : Host.Outcome State Fault Refusal := .next s

end Sys2Proof.Machine
end

