-- ==== Sys2Proof/Machine/Dispatch.lean ====
section
/-! DEFINITION. The dispatch: one arm per constructor of Instr, each a direct call of its meaning. -/

namespace Sys2Proof.Machine

def exec (i : Instr) (s : State) : Host.Outcome State Fault Refusal :=
  match i with
  | .idle => Sys2Proof.Machine.execIdle s
  | .seed => Sys2Proof.Machine.execSeed s
  | .frame => Sys2Proof.Machine.execFrame s
  | .loadw t => Sys2Proof.Machine.execLoadw t s
  | .expw t => Sys2Proof.Machine.execExpw t s
  | .initv => Sys2Proof.Machine.execInitv s
  | .round t => Sys2Proof.Machine.execRound t s
  | .fold => Sys2Proof.Machine.execFold s
  | .serw k => Sys2Proof.Machine.execSerw k s
  | .finish => Sys2Proof.Machine.execFinish s
  | .wrctrl data => Sys2Proof.Machine.execWrctrl data s
  | .rdctrl data => Sys2Proof.Machine.execRdctrl data s
  | .rdstatus data => Sys2Proof.Machine.execRdstatus data s
  | .wrstatus data => Sys2Proof.Machine.execWrstatus data s
  | .wrlen data => Sys2Proof.Machine.execWrlen data s
  | .rdlen data => Sys2Proof.Machine.execRdlen data s
  | .rdrsvd reg data => Sys2Proof.Machine.execRdrsvd reg data s
  | .wrrsvd reg data => Sys2Proof.Machine.execWrrsvd reg data s

end Sys2Proof.Machine
end

