-- ==== Sys2Proof/Machine/Environment.lean ====
section
/-! DEFINITION. What the outside does beside register accesses: bus exchanges (R9, R64), the host's own buffer accesses
(R243, R301, R303) and the external reset (R290). -/

namespace Sys2Proof.Machine

/-- The digest byte a host load returns for certain: `DONE = 1` (R303) and no breach for that byte (log 8). -/
def validDigestByte (s : State) (j : BitVec 5) : Option Byte :=
  if s.DONE && !s.digTaint.getLsbD j.toNat then Memory.lookup s.DIG j.toNat else none

/-- The accesses exchange one register whole: each carries `width` bytes, and there are just as many as four bytes need
(R9, R64; log 19). -/
def RegBinding.exchangesWhole (b : RegBinding) (accesses : List (List Byte)) : Bool :=
  accesses.all (fun bytes => decide (bytes.length = b.width)) &&
    decide (4 ≤ accesses.length * b.width) && decide ((accesses.length - 1) * b.width < 4)

/-- The word whose bytes the accesses carry, in the binding's order (R64); what follows the first four bytes is ignored
(log 19). -/
def RegBinding.wordOf (b : RegBinding) (accesses : List (List Byte)) : Option Word :=
  match accesses.flatten with
  | b0 :: b1 :: b2 :: b3 :: _ => some (if b.bigEndian then be32 b0 b1 b2 b3 else be32 b3 b2 b1 b0)
  | _ => none

/-- The bytes of a word as the bus gives them (R64): what a bus read answers with, cut into accesses of `width` bytes, is
`bytesOf` of `State.readData`. -/
def RegBinding.bytesOf (b : RegBinding) (x : Word) : List Byte :=
  if b.bigEndian then [byteOf x 0, byteOf x 1, byteOf x 2, byteOf x 3]
  else [byteOf x 3, byteOf x 2, byteOf x 1, byteOf x 0]

/-- The register access that accesses on a bus make, if REG_BINDING puts a register on that bus at their address and they
exchange it whole (R9, R64; log 19). -/
def busAccess (b : RegBinding) (wr : Bool) (bus address : Nat) (accesses : List (List Byte)) : Option (BitVec 37) :=
  if decide (bus = b.bus) && RegBinding.exchangesWhole b accesses then
    match RegBinding.register b address, RegBinding.wordOf b accesses with
    | some reg, some x => some (hostWord wr reg x)
    | _, _ => none
  else none

/-- The host stores into its digest buffer. While BUSY it breaks R303 and that byte becomes unspecified at DONE (U9);
otherwise the buffer is the host's and a later load returns what it wrote (R303; log 8). -/
def hostStoreDig (j : BitVec 5) (b : Byte) (s : State) : State :=
  { s with
    DIG := Memory.write s.DIG j.toNat b
    digTaint := if s.BUSY then s.digTaint ||| BitVec.twoPow 32 j.toNat
      else s.digTaint &&& ~~~BitVec.twoPow 32 j.toNat }

/-- Stores of the same byte at several digest indices, in order. -/
def storeDigAll (js : List (BitVec 5)) (b : Byte) (s : State) : State :=
  js.foldl (fun t j => hostStoreDig j b t) s

/-- The digest indices that share their platform byte with message index `i`. -/
def sharedWith (s : State) (i : Nat) : List (BitVec 5) :=
  ((List.range 32).map (BitVec.ofNat 5)).filter fun j => sharesByte s i j.toNat

/-- `ST MSG[i], b` (R243). Below `L` while BUSY it breaks R301, and all 32 digest bytes become unspecified (U6; log 8).
Where the same platform byte is a digest byte, the host has stored into its digest buffer as well (log 9). -/
def hostStoreMsg (i : BitVec 32) (b : Byte) (s : State) : State :=
  storeDigAll (sharedWith s i.toNat) b
    { s with
      MSG := Memory.write s.MSG i.toNat b
      digTaint := if s.BUSY && decide (i.toNat < s.L.toNat) then BitVec.allOnes 32 else s.digTaint }

/-- `LD DIG[j]` (R243): the digest byte where it is valid, else a free value, drawn afresh (R303, U8; log 7). -/
def hostLoadDig (j : BitVec 5) (s : State) : State :=
  match validDigestByte s j with
  | some b => { s with loadData := b }
  | none => { s with loadData := Config.freeByte s.draws, draws := s.draws + 1 }

/-- The external reset, one atomic step (R290): SEQ, BUSY, DONE and LEN as R39 states, the hidden registers free values
(U13; log 6). MSG and DIG are not touched. -/
def applyReset (s : State) : State :=
  { s with
    SEQ := seqIdle
    BUSY := false
    DONE := false
    LEN := 0
    H := Config.freeHash s.draws
    v := varsOfVector (Config.freeVars s.draws)
    W := Config.freeSchedule s.draws
    BLOCK := Config.freeBlock s.draws
    L := Config.freeLength s.draws
    N := Config.freeCounter s.draws
    draws := s.draws + 1 }

end Sys2Proof.Machine
end

