-- ==== Sys2Proof/Machine/Step.lean ====
section
/-! DEFINITION. One step of the machine: one turn of the core, the host or the reset (R237, R266; log 1), and how the host's
check places one instruction (log 14). -/

namespace Sys2Proof.Machine

/-- The core's turn: it executes the micro-operation `SEQ` names (R23); a sequencer word outside R93 has no step and is
refused (R97; log 10). -/
def coreStep (s : State) : Host.Outcome State Fault Refusal :=
  match currentOperation s with
  | .ok i => exec i s
  | .error _ => .refused (.unreachableSequencerWord s.SEQ)

/-- One turn, the next one of `turns`; when there is none, the core's. -/
def step (s : State) : Host.Outcome State Fault Refusal :=
  match s.turns with
  | [] => coreStep s
  | .core :: rest => coreStep { s with turns := rest }
  | .access w :: rest => exec (decodeHost w) { s with turns := rest }
  | .bus wr bus a accesses :: rest =>
    match busAccess s.regBinding wr bus a accesses with
    | some w => exec (decodeHost w) { s with turns := rest }
    | none => .next { s with turns := rest }
  | .storeMsg i b :: rest => .next (hostStoreMsg i b { s with turns := rest })
  | .loadDig j :: rest => .next (hostLoadDig j { s with turns := rest })
  | .storeDig j b :: rest => .next (hostStoreDig j b { s with turns := rest })
  | .reset :: rest => .next (applyReset { s with turns := rest })

/-- `s` with the instruction of these bits next to run (log 14): a format-U word becomes the sequencer position and the next
turn is the core's; a format-H word becomes the host's next register access. -/
def State.withFetchWord (s : State) (nbits w : Nat) : State :=
  match tableCode nbits w with
  | some (.u x) => { s with SEQ := Seq.ofWord x, turns := .core :: s.turns }
  | some (.h x) => { s with turns := .access x :: s.turns }
  | none => s

end Sys2Proof.Machine
end

