-- ==== Sys2Proof/Machine/Function.lean ====
section
/-! DEFINITION. The function the core computes, as the spec gives it in closed form (R183, R206, R233, R244), apart from the
step-wise machine. Statements compare the two. -/

namespace Sys2Proof.Machine

/-- Entry `t` of a schedule whose earlier entries are those of `w` (R183): from the block below 16, else expanded. -/
def scheduleEntry (block : Vector Byte 64) (w : Vector Word 64) (t : Nat) : Word :=
  if t < 16 then loadWord block (BitVec.ofNat 4 t) else expandWord w (BitVec.ofNat 6 t)

/-- The schedule of a block up to, not including, entry `n`; later entries are zero. -/
def schedulePrefix (block : Vector Byte 64) : Nat → Vector Word 64
  | 0 => Vector.replicate 64 0
  | t + 1 =>
    upd64 (schedulePrefix block t) (BitVec.ofNat 6 t) (scheduleEntry block (schedulePrefix block t) t)

/-- `SCHED(block)` (R183). -/
def schedule (block : Vector Byte 64) : Vector Word 64 := schedulePrefix block 64

/-- The working variables after the first `n` rounds on schedule `w` from `v` (R206). -/
def roundsFrom (w : Vector Word 64) (v : Vars) : Nat → Vars
  | 0 => v
  | t + 1 => rnd (roundsFrom w v t) (sel64 K (BitVec.ofNat 6 t)) (sel64 w (BitVec.ofNat 6 t))

/-- `COMPRESS(S, block)` (R206). -/
def compress (x : Vector Word 8) (block : Vector Byte 64) : Vector Word 8 :=
  foldHash x (roundsFrom (schedule block) (varsOfVector x) 64)

/-- `S_n`: the hash state after `n` blocks of the padded message (R244). -/
def hashAfter (len : Word) (msg : Nat → Byte) : Nat → Vector Word 8
  | 0 => IV
  | n + 1 => compress (hashAfter len msg n) (paddedBlock len msg n)

/-- `HFINAL(L, M)` (R244). -/
def finalHash (len : Word) (msg : Nat → Byte) : Vector Word 8 := hashAfter len msg (blockCount len.toNat)

/-- Byte `j` of `SER(S)`: byte `j mod 4` of word `j / 4`, most significant first (R233). -/
def serialByte (x : Vector Word 8) (j : BitVec 5) : Byte :=
  byteOf (sel8 x (j.extractLsb' 2 3)) (j.extractLsb' 0 2)

/-- Byte `j` of the digest `SHA256(L, M) = SER(HFINAL(L, M))` (R244). -/
def sha256Byte (len : Word) (msg : Nat → Byte) (j : BitVec 5) : Byte := serialByte (finalHash len msg) j

end Sys2Proof.Machine
end

