-- ==== Sys2Proof/Machine/Trace.lean ====
section
/-! DEFINITION. The pseudo-operations of R101 as lists, and the trace of micro-operations the core executes (R223). -/

namespace Sys2Proof.Machine

/-- SCHEDULE: LOADW 0..15, EXPW 16..63 (R101, R180). -/
def scheduleOps : List Instr :=
  ((List.range 16).map fun t => Instr.loadw (BitVec.ofNat 4 t)) ++
    ((List.range 48).map fun t => Instr.expw (BitVec.ofNat 6 (16 + t)))

/-- ROUNDS: ROUND 0..63 (R101). -/
def roundOps : List Instr := (List.range 64).map fun t => Instr.round (BitVec.ofNat 6 t)

/-- COMPRESS: SCHEDULE, INITV, ROUNDS, FOLD (R101, R206). -/
def compressOps : List Instr := scheduleOps ++ .initv :: roundOps ++ [.fold]

/-- SERIALIZE: SERW 0..7 (R101). -/
def serializeOps : List Instr := (List.range 8).map fun i => Instr.serw (BitVec.ofNat 3 i)

/-- `n` passes over a block: FRAME and COMPRESS each (R223). -/
def blockOps : Nat → List Instr
  | 0 => []
  | n + 1 => .frame :: compressOps ++ blockOps n

/-- INVOCATION(L): the whole trace of the core for one accepted START (R101, R223). -/
def invocationOps (len : Nat) : List Instr :=
  .seed :: blockOps (blockCount len) ++ serializeOps ++ [.finish]

/-- The operations executed one after another, without regard to `SEQ`. -/
def execList : List Instr → State → Host.Outcome State Fault Refusal
  | [], s => .next s
  | i :: is, s =>
    match exec i s with
    | .next t => execList is t
    | .fault r => .fault r
    | .refused r => .refused r

/-- The operations the core's next `n` turns execute, each the one `SEQ` names (R23). -/
def traceOf : Nat → State → List Instr
  | 0, _ => []
  | n + 1, s =>
    match currentOperation s with
    | .error _ => []
    | .ok i =>
      i :: (match exec i s with
        | .next t => traceOf n t
        | .fault _ => []
        | .refused _ => [])

/-! The host's pseudo-operations (R101) as turns. -/

/-- START: `WR CTRL, 1` (R95, R101). -/
def startTurns : List Turn := [.access (hostWord true 0 1)]

/-- LOADMSG: the bytes stored from index `i` on, then `WR LEN` (R101). -/
def storeTurns : Nat → List Byte → List Turn
  | _, [] => []
  | i, b :: bs => .storeMsg (BitVec.ofNat 32 i) b :: storeTurns (i + 1) bs

/-- LOADMSG b0 .. b(L-1) (R101). -/
def loadMsgTurns (bs : List Byte) : List Turn :=
  storeTurns 0 bs ++ [.access (hostWord true 2 (BitVec.ofNat 32 bs.length))]

/-- READDIG: LD DIG[0] .. LD DIG[31] (R101). -/
def readDigTurns : List Turn := (List.range 32).map fun j => Turn.loadDig (BitVec.ofNat 5 j)

/-- WAITDONE with `n` polls: reads of STATUS (R101); how many a host makes depends on the interleaving. -/
def waitDoneTurns (n : Nat) : List Turn := List.replicate n (.access (hostWord false 1 0))

/-- HASH b0 .. b(L-1) (R101): the source's one call, in an interleaving where the core moves `k` turns before `n` polls. -/
def hashTurns (bs : List Byte) (k n : Nat) : List Turn :=
  loadMsgTurns bs ++ startTurns ++ List.replicate k .core ++ waitDoneTurns n ++ readDigTurns

end Sys2Proof.Machine
end

