-- ==== Sys2Proof/Safety.lean ====
section
/-! DEFINITION. What counts as a legal state and a safe run: the sequencer invariants (R225), the flags (R24), the canonical
form of the two spaces, the launch premises (R300), and the functional invariant that relates the hidden state to the
function of R244. -/

namespace Sys2Proof.Machine

/-- One of the 142 legal sequencer positions, by the table of R93. -/
abbrev legalSeq (q : Seq) : Prop :=
  (q.uop ∈ [0, 1, 2, 5, 7, 9] ∧ q.idx = 0) ∨ (q.uop = 3 ∧ q.idx.toNat ≤ 15) ∨
    (q.uop = 4 ∧ 16 ≤ q.idx.toNat) ∨ q.uop = 6 ∨ (q.uop = 8 ∧ q.idx.toNat ≤ 7)

/-- `BUSY = 1` exactly when `SEQ.UOP` is not IDLE (R24, R225 (2)). -/
abbrev busyMatches (s : State) : Prop := s.BUSY = true ↔ s.SEQ.uop ≠ 0

/-- BUSY and DONE are never both 1 (R24). -/
abbrev flagsExclusive (s : State) : Prop := ¬(s.BUSY = true ∧ s.DONE = true)

/-- The block counter is below `NBLK(L)` from FRAME to FOLD and equal to it in SERW and FINISH (R29, R225 (3)). -/
abbrev counterInRange (s : State) : Prop :=
  (s.SEQ.uop ∈ [2, 3, 4, 5, 6, 7] → s.N.toNat < blockCount s.L.toNat) ∧
    (s.SEQ.uop ∈ [8, 9] → s.N.toNat = blockCount s.L.toNat)

/-- The sequencer invariants of R24 and R225 (1) to (3). -/
abbrev sequencerInv (s : State) : Prop :=
  legalSeq s.SEQ ∧ busyMatches s ∧ flagsExclusive s ∧ counterInRange s

/-- Both byte spaces are in canonical form: `2^32` message indices (R35), 32 digest indices (R36). -/
abbrev memoryWf (s : State) : Prop :=
  Memory.wf 4294967296 s.MSG = true ∧ Memory.wf 32 s.DIG = true

/-- The launch premises R300 (c) and (d) about the digest buffer, through the bindings. -/
abbrev launchAllowed (s : State) : Prop := digWritable s = true ∧ launchOverlaps s = false

/-- Launch premise R300 (b) for the latched length: every message index is readable. -/
def messageReadable (s : State) : Prop := ∀ i, i < s.L.toNat → (memReadMsg s i).isSome = true

/-- The reads of the FRAME in progress are admitted (R69). -/
abbrev readsAdmitted (s : State) : Prop := ∀ i ∈ readsOfBlock s.L.toNat s.N.toNat, (memReadMsg s i).isSome = true

/-- The message of the invocation in progress, in the message space. -/
def message (s : State) : Nat → Byte := messageOf s.powerOn s.MSG

/-- Block `N` of the padded stream of that message (R156). -/
def currentBlock (s : State) : Vector Byte 64 := paddedBlock s.L (message s) s.N.toNat

/-- The first `t` schedule words are those of the current block (R180, R183). -/
def scheduleUpTo (s : State) (t : Nat) : Prop :=
  ∀ i : BitVec 6, i.toNat < t → sel64 s.W i = sel64 (schedule (currentBlock s)) i

/-- The digest bytes below index `n` that no breach touched are those of the final hash state (R232, R233). -/
def digestUpTo (s : State) (n : Nat) : Prop :=
  ∀ j : BitVec 5, j.toNat < n → s.digTaint.getLsbD j.toNat = false →
    Memory.lookup s.DIG j.toNat = some (sha256Byte s.L (message s) j)

/-- The functional invariant (R225 (5) and its counterparts at the earlier positions): unless the host changed the message
while the core was busy (R301; then every digest byte is marked), the hidden state is what the function of R244 says it is
at the sequencer's position. -/
def tracksFunction (s : State) : Prop :=
  s.digTaint ≠ BitVec.allOnes 32 →
    match s.SEQ.uop.toNat with
    | 2 => s.H = hashAfter s.L (message s) s.N.toNat
    | 3 | 4 =>
      s.H = hashAfter s.L (message s) s.N.toNat ∧ s.BLOCK = currentBlock s ∧ scheduleUpTo s s.SEQ.idx.toNat
    | 5 => s.H = hashAfter s.L (message s) s.N.toNat ∧ scheduleUpTo s 64
    | 6 =>
      s.H = hashAfter s.L (message s) s.N.toNat ∧ scheduleUpTo s 64 ∧
        s.v = roundsFrom (schedule (currentBlock s)) (varsOfVector s.H) s.SEQ.idx.toNat
    | 7 =>
      s.H = hashAfter s.L (message s) s.N.toNat ∧
        s.v = roundsFrom (schedule (currentBlock s)) (varsOfVector s.H) 64
    | 8 => s.H = finalHash s.L (message s) ∧ digestUpTo s (4 * s.SEQ.idx.toNat)
    | 9 => s.H = finalHash s.L (message s) ∧ digestUpTo s 32
    | _ => True

/-- The host's register accesses, the format-H operations of R95. -/
def isHostAccess : Instr → Bool
  | .wrctrl _ | .rdctrl _ | .rdstatus _ | .wrstatus _ | .wrlen _ | .rdlen _ | .rdrsvd _ _ | .wrrsvd _ _ => true
  | .idle | .seed | .frame | .loadw _ | .expw _ | .initv | .round _ | .fold | .serw _ | .finish => false

/-- A state in which an invocation has ended (R236). -/
abbrev invocationEnded (s : State) : Prop := s.SEQ = seqIdle ∧ s.BUSY = false ∧ s.DONE = true

end Sys2Proof.Machine
end

