-- ==== Sys2Proof/Certificates/Slice0/Obligations.lean ====
section
/-! DEFINITION. The statements for the provers, each a rule of spec/ or a property that follows from its rules. -/

open Sys2Proof Sys2Proof.Machine

/-! ## Encoding -/

/-- R91 to R95: encoding a well-formed operation and decoding the word gives it back, every operand at every value. -/
def Obligations.DecodeOfEncodeIsIdentity : Prop :=
  ∀ i : Instr, i.wellFormed = true → decode (encode i) = .ok i

/-- R93, R95, R98: a word that decodes is the encoding of the well-formed operation it decodes to. -/
def Obligations.EncodeOfDecodeIsIdentity : Prop :=
  ∀ (c : Code) (i : Instr), decode c = .ok i → i.wellFormed = true ∧ encode i = c

/-- R93: the sequencer words that name an operation are the legal ones of the table, 142 in number. -/
def Obligations.LegalSequencerWordsAre142 : Prop :=
  (∀ w : BitVec 10, (∃ i, decode (.u w) = .ok i) ↔ legalSeq ⟨w.extractLsb' 6 4, w.extractLsb' 0 6⟩) ∧
    ((List.range 1024).filter fun n => (decodeTableWord 10 n).isSome).length = 142

/-- R97: a sequencer word outside R93 has no step and is marked refused, and EXPW below 16 is no legal word (that the two
are refusals under this name: log 10). -/
def Obligations.ReservedSequencerWordIsRefused : Prop :=
  (∀ s : State, ¬legalSeq s.SEQ → coreStep s = .refused (.unreachableSequencerWord s.SEQ)) ∧
    ∀ (t : BitVec 6) (s : State), t.toNat < 16 → exec (.expw t) s = .refused (.unreachableSequencerWord ⟨4, t⟩)

/-- R94, R95: the fields of a host word and the operation each of the 32 (WR, REG) pairs names; every word is one. -/
def Obligations.HostWordMapIsTotal : Prop :=
  (∀ (wr : Bool) (reg : BitVec 4) (data : Word),
    (hostWord wr reg data).toNat = wr.toNat * 2 ^ 36 + reg.toNat * 2 ^ 32 + data.toNat ∧
    decode (.h (hostWord wr reg data)) = .ok
      (if reg = 0 then (if wr then .wrctrl data else .rdctrl data)
       else if reg = 1 then (if wr then .wrstatus data else .rdstatus data)
       else if reg = 2 then (if wr then .wrlen data else .rdlen data)
       else if wr then .wrrsvd reg data else .rdrsvd reg data)) ∧
  ∀ w : BitVec 37, ∃ wr reg data, w = hostWord wr reg data

/-- R93, R95 and the words written out in 95_test_vectors.md, sections 8 and 9. -/
def Obligations.SpecWordsDecode : Prop :=
  decode (.u 0b0011001111) = .ok (.loadw 15) ∧ decode (.u 0b0100010000) = .ok (.expw 16) ∧
  decode (.u 0b0110111111) = .ok (.round 63) ∧ decode (.u 0b1000000111) = .ok (.serw 7) ∧
  decode (.u 0b1001000000) = .ok .finish ∧ decode (.h 0x1000000001) = .ok (.wrctrl 1) ∧
  decode (.h 0x1200000040) = .ok (.wrlen 64) ∧ decode (.h 0x0100000000) = .ok (.rdstatus 0) ∧
  decode (.h 0x17DEADBEEF) = .ok (.wrrsvd 7 0xDEADBEEF) ∧ decode (.h 0x0F00000000) = .ok (.rdrsvd 15 0)

/-! ## A step -/

/-- R23, R237: on the core's turn the step is exec of the operation the sequencer word decodes to, on the host's turn exec of
the access its word decodes to; a listed turn is consumed, and nothing else is added around exec (turns: log 1). R9, R64:
accesses on the bus of REG_BINDING, each of its width and just as many as four bytes need, are the access to the register it
puts at their address, the least such one, with the first four bytes in its order; on another bus, of another width, too few
or too many, or where it puts no register, only the turn passes; the bytes the bus gives for a word are that word's, in the
same order (the binding's form: log 19). -/
def Obligations.TurnRunsDecodedOperation : Prop :=
  (∀ (s : State) (i : Instr),
    (decode (.u s.SEQ.word) = .ok i →
      (s.turns = [] → step s = exec i s) ∧
      ∀ rest, s.turns = .core :: rest → step s = exec i { s with turns := rest }) ∧
    ∀ (w : BitVec 37) (rest : List Turn), decode (.h w) = .ok i → s.turns = .access w :: rest →
      step s = exec i { s with turns := rest }) ∧
  (∀ (s : State) (wr : Bool) (bus address : Nat) (accesses : List (List Byte)) (rest : List Turn),
    s.turns = .bus wr bus address accesses :: rest →
    (∀ (reg : BitVec 4) (i : Instr) (b0 b1 b2 b3 : Byte) (others : List Byte),
      bus = s.regBinding.bus → (∀ bytes ∈ accesses, bytes.length = s.regBinding.width) →
      4 ≤ accesses.length * s.regBinding.width → (accesses.length - 1) * s.regBinding.width < 4 →
      accesses.flatten = b0 :: b1 :: b2 :: b3 :: others →
      s.regBinding.base + s.regBinding.stride * reg.toNat = address →
      (∀ r, r < reg.toNat → s.regBinding.base + s.regBinding.stride * r ≠ address) →
      (s.regBinding.bigEndian = true → decode (.h (hostWord wr reg (be32 b0 b1 b2 b3))) = .ok i →
        step s = exec i { s with turns := rest }) ∧
      (s.regBinding.bigEndian = false → decode (.h (hostWord wr reg (be32 b3 b2 b1 b0))) = .ok i →
        step s = exec i { s with turns := rest })) ∧
    (bus ≠ s.regBinding.bus ∨ (∃ bytes ∈ accesses, bytes.length ≠ s.regBinding.width) ∨
        accesses.length * s.regBinding.width < 4 ∨ 4 ≤ (accesses.length - 1) * s.regBinding.width ∨
        (∀ r, r < 16 → s.regBinding.base + s.regBinding.stride * r ≠ address) →
      step s = .next { s with turns := rest })) ∧
  ∀ (b : RegBinding) (x : Word), ∃ b0 b1 b2 b3 : Byte,
    RegBinding.bytesOf b x = [b0, b1, b2, b3] ∧
    (b.bigEndian = true → x = be32 b0 b1 b2 b3) ∧ (b.bigEndian = false → x = be32 b3 b2 b1 b0)

/-! ## Word functions -/

/-- R123, R124: the shift is logical; the rotation moves bit `(i + n) mod 32` to bit `i`, in the spec's arithmetic form, and
is undone by the rotation by `32 - n`. -/
def Obligations.RotateAndShiftRight : Prop :=
  (∀ (x : Word) (n : Nat), n ≤ 31 → (shr x n).toNat = x.toNat / 2 ^ n) ∧
  ∀ (x : Word) (n : Nat), 1 ≤ n → n ≤ 31 →
    (∀ i, i < 32 → (rotr x n).getLsbD i = x.getLsbD ((i + n) % 32)) ∧
    (rotr x n).toNat = (x.toNat / 2 ^ n + x.toNat % 2 ^ n * 2 ^ (32 - n)) % 2 ^ 32 ∧
    rotr (rotr x n) (32 - n) = x

/-- R125: where bit `i` of `e` is 1 CH takes bit `i` of `f`, where it is 0 bit `i` of `g`. R126: a bit of MAJ is 1 exactly
when at least two of the three input bits are, and the operands commute. -/
def Obligations.ChooseAndMajorityBitwise : Prop :=
  (∀ (e f g : Word) (i : Nat), i < 32 →
    (ch e f g).getLsbD i = if e.getLsbD i then f.getLsbD i else g.getLsbD i) ∧
  (∀ (a b c : Word) (i : Nat), i < 32 →
    ((maj a b c).getLsbD i = true ↔ 2 ≤ (a.getLsbD i).toNat + (b.getLsbD i).toNat + (c.getLsbD i).toNat)) ∧
  ∀ a b c : Word, maj a b c = maj b a c ∧ maj a b c = maj a c b

/-- R127, R128: the two round functions of one word, bit by bit. -/
def Obligations.BigSigmaFunctionsBitwise : Prop :=
  ∀ (x : Word) (i : Nat), i < 32 →
    (bsig0 x).getLsbD i =
      (x.getLsbD ((i + 2) % 32) ^^ x.getLsbD ((i + 13) % 32) ^^ x.getLsbD ((i + 22) % 32)) ∧
    (bsig1 x).getLsbD i =
      (x.getLsbD ((i + 6) % 32) ^^ x.getLsbD ((i + 11) % 32) ^^ x.getLsbD ((i + 25) % 32))

/-- The two schedule functions bit by bit; a shift brings zeros in at the top. That the three terms are joined by exclusive
OR is not in the source: 93_implementation_defined.md G3 supplies it, and log 13 names it. -/
def Obligations.SmallSigmaFunctionsBitwise : Prop :=
  ∀ (x : Word) (i : Nat), i < 32 →
    (ssig0 x).getLsbD i =
      (x.getLsbD ((i + 7) % 32) ^^ x.getLsbD ((i + 18) % 32) ^^ (decide (i + 3 < 32) && x.getLsbD (i + 3))) ∧
    (ssig1 x).getLsbD i =
      (x.getLsbD ((i + 17) % 32) ^^ x.getLsbD ((i + 19) % 32) ^^ (decide (i + 10 < 32) && x.getLsbD (i + 10)))

/-- R13, R131: BE32 puts the first byte on top, and BE32 and BYTE_k are mutually inverse. -/
def Obligations.PackingIsInverse : Prop :=
  (∀ b0 b1 b2 b3 : Byte,
    (be32 b0 b1 b2 b3).toNat = b0.toNat * 2 ^ 24 + b1.toNat * 2 ^ 16 + b2.toNat * 2 ^ 8 + b3.toNat ∧
    byteOf (be32 b0 b1 b2 b3) 0 = b0 ∧ byteOf (be32 b0 b1 b2 b3) 1 = b1 ∧
    byteOf (be32 b0 b1 b2 b3) 2 = b2 ∧ byteOf (be32 b0 b1 b2 b3) 3 = b3) ∧
  ∀ w : Word, be32 (byteOf w 0) (byteOf w 1) (byteOf w 2) (byteOf w 3) = w

/-! ## Padding and framing -/

/-- R150: the number of zero bytes is the least that completes a multiple of 64; 0 exactly at 55, 63 exactly at 56. -/
def Obligations.ZeroCountIsLeast : Prop :=
  ∀ len : Nat,
    (len + 1 + zeroCount len + 8) % 64 = 0 ∧
    (∀ p, (len + 1 + p + 8) % 64 = 0 → zeroCount len ≤ p) ∧
    zeroCount len ≤ 63 ∧ (zeroCount len = 0 ↔ len % 64 = 55) ∧ (zeroCount len = 63 ↔ len % 64 = 56)

/-- R151, R152, R153: the padded length and the block count in the spec's other forms and their bounds, and the bit length,
exact for every 32-bit length. -/
def Obligations.PaddingQuantities : Prop :=
  (∀ len : Nat,
    paddedLength len = len + 1 + zeroCount len + 8 ∧
    paddedLength len = 64 * ((len + 8) / 64 + 1) ∧ 9 ≤ paddedLength len - len ∧ paddedLength len - len ≤ 72 ∧
    (len ≤ 2 ^ 32 - 1 → paddedLength len ≤ 2 ^ 32 + 64) ∧
    blockCount len = (len + 8) / 64 + 1 ∧ (len ≤ 2 ^ 32 - 1 → blockCount len ≤ 2 ^ 26 + 1) ∧
    (len % 64 ≤ 55 → blockCount len = len / 64 + 1) ∧ (56 ≤ len % 64 → blockCount len = len / 64 + 2)) ∧
  ∀ len : Word, (bitLength len).toNat = 8 * len.toNat

/-- R155 (1) to (5): whole blocks, the trailer is the bit length big-endian, its high bytes, the marker, the prefix. -/
def Obligations.PaddedStreamInvariants : Prop :=
  ∀ (len : Word) (msg : Nat → Byte),
    paddedLength len.toNat % 64 = 0 ∧
    ((List.range 8).map fun k =>
      (paddedByte len msg (paddedLength len.toNat - 8 + k)).toNat * 2 ^ (8 * (7 - k))).sum = 8 * len.toNat ∧
    (∀ k, k < 3 → paddedByte len msg (paddedLength len.toNat - 8 + k) = 0) ∧
    (paddedByte len msg (paddedLength len.toNat - 5)).toNat = len.toNat / 2 ^ 29 ∧
    paddedByte len msg len.toNat = 0x80 ∧
    ∀ i, i < len.toNat → paddedByte len msg i = msg i

/-- R155 (6): the padded stream determines the length and the message. -/
def Obligations.PaddingIsInjective : Prop :=
  ∀ (len len' : Word) (msg msg' : Nat → Byte),
    paddedLength len.toNat = paddedLength len'.toNat →
    (∀ i, i < paddedLength len.toNat → paddedByte len msg i = paddedByte len' msg' i) →
    len = len' ∧ ∀ i, i < len.toNat → msg i = msg' i

/-- R156: the shape of the blocks; `q = L / 64`, `r = L mod 64`. -/
def Obligations.BlockShapes : Prop :=
  ∀ (len : Word) (msg : Nat → Byte) (j : BitVec 6),
    (∀ n, n < len.toNat / 64 → sel64 (paddedBlock len msg n) j = msg (64 * n + j.toNat)) ∧
    (j.toNat < len.toNat % 64 →
      sel64 (paddedBlock len msg (len.toNat / 64)) j = msg (64 * (len.toNat / 64) + j.toNat)) ∧
    (j.toNat = len.toNat % 64 → sel64 (paddedBlock len msg (len.toNat / 64)) j = 0x80) ∧
    (len.toNat % 64 ≤ 55 →
      blockCount len.toNat = len.toNat / 64 + 1 ∧
      (len.toNat % 64 < j.toNat → j.toNat < 56 → sel64 (paddedBlock len msg (len.toNat / 64)) j = 0)) ∧
    (56 ≤ len.toNat % 64 →
      blockCount len.toNat = len.toNat / 64 + 2 ∧
      (len.toNat % 64 < j.toNat → sel64 (paddedBlock len msg (len.toNat / 64)) j = 0) ∧
      (j.toNat < 56 → sel64 (paddedBlock len msg (len.toNat / 64 + 1)) j = 0)) ∧
    (56 ≤ j.toNat →
      (sel64 (paddedBlock len msg (blockCount len.toNat - 1)) j).toNat =
        8 * len.toNat / 2 ^ (8 * (63 - j.toNat)) % 256) ∧
    (loadWord (paddedBlock len msg (blockCount len.toNat - 1)) 14).toNat = len.toNat / 2 ^ 29 ∧
    (loadWord (paddedBlock len msg (blockCount len.toNat - 1)) 15).toNat = 8 * len.toNat % 2 ^ 32

/-- R66 (1), (2): over the blocks of an invocation each index below `L` is read once, in ascending order, and no other. -/
def Obligations.MessageIsReadOnceInOrder : Prop :=
  ∀ len : Nat, (List.range (blockCount len)).flatMap (readsOfBlock len) = List.range len

/-- R157: FRAME writes block `N` of the padded stream and nothing else but SEQ, whenever its reads are admitted. -/
def Obligations.FrameResult : Prop :=
  ∀ s : State, s.N.toNat < blockCount s.L.toNat → readsAdmitted s →
    ∃ block : Vector Byte 64,
      exec .frame s = .next { s with BLOCK := block, SEQ := ⟨3, 0⟩ } ∧
      ∀ j : BitVec 6,
        (64 * s.N.toNat + j.toNat < s.L.toNat →
          memReadMsg s (64 * s.N.toNat + j.toNat) = some (sel64 block j)) ∧
        (64 * s.N.toNat + j.toNat = s.L.toNat → sel64 block j = 0x80) ∧
        (s.L.toNat < 64 * s.N.toNat + j.toNat → 64 * s.N.toNat + j.toNat < paddedLength s.L.toNat - 8 →
          sel64 block j = 0x00) ∧
        (paddedLength s.L.toNat - 8 ≤ 64 * s.N.toNat + j.toNat →
          (sel64 block j).toNat =
            8 * s.L.toNat / 2 ^ (8 * (7 - (64 * s.N.toNat + j.toNat - (paddedLength s.L.toNat - 8)))) % 256)

/-- R69: if a read of FRAME is not admitted the core has no step; the model's name for that is this fault (log 3). -/
def Obligations.FrameWithoutAdmissionIsStuck : Prop :=
  ∀ s : State, s.N.toNat < blockCount s.L.toNat →
    (∃ i ∈ readsOfBlock s.L.toNat s.N.toNat, memReadMsg s i = none) → exec .frame s = .fault .stuckMessageRead

/-- The model's choice (log 11) for what R29, R157 and R205 say cannot occur: past the last block FRAME and FOLD are
refused. -/
def Obligations.BlockPastTheLastIsRefused : Prop :=
  ∀ s : State, blockCount s.L.toNat ≤ s.N.toNat →
    exec .frame s = .refused .blockBeyondLast ∧ exec .fold s = .refused .blockBeyondLast

/-- R66 (2), R305: what FRAME does depends on no message index at or above `L`, admitted or not, and not on where the
platform puts the message (R9). -/
def Obligations.FrameIgnoresBytesAboveLength : Prop :=
  ∀ (s t : State) (m : Memory) (b : Binding) (p : Nat),
    (∀ i, i < s.L.toNat → memReadMsg { s with MSG := m, msgBinding := b, powerOn := p } i = memReadMsg s i) →
    exec .frame s = .next t →
    exec .frame { s with MSG := m, msgBinding := b, powerOn := p } =
      .next { t with MSG := m, msgBinding := b, powerOn := p }

/-! ## Schedule -/

/-- R181: LOADW `t` writes the big-endian word of four block bytes to `W[t]` and leaves all else but SEQ. -/
def Obligations.LoadwResult : Prop :=
  ∀ (t : BitVec 4) (s : State), ∃ w : Vector Word 64,
    exec (.loadw t) s =
      .next { s with W := w, SEQ := if t = 15 then ⟨4, 16⟩ else ⟨3, BitVec.ofNat 6 (t.toNat + 1)⟩ } ∧
    (sel64 w (BitVec.ofNat 6 t.toNat)).toNat =
      (sel64 s.BLOCK (BitVec.ofNat 6 (4 * t.toNat))).toNat * 2 ^ 24 +
      (sel64 s.BLOCK (BitVec.ofNat 6 (4 * t.toNat + 1))).toNat * 2 ^ 16 +
      (sel64 s.BLOCK (BitVec.ofNat 6 (4 * t.toNat + 2))).toNat * 2 ^ 8 +
      (sel64 s.BLOCK (BitVec.ofNat 6 (4 * t.toNat + 3))).toNat ∧
    ∀ u : BitVec 6, u.toNat ≠ t.toNat → sel64 w u = sel64 s.W u

/-- R182: EXPW `t` writes the sum of four earlier words, modulo `2^32`, to `W[t]` and leaves all else but SEQ. Which function
goes with which offset is the spec's reading of its source (91_not_in_source.md N4; log 13). -/
def Obligations.ExpwResult : Prop :=
  ∀ (t : BitVec 6) (s : State), 16 ≤ t.toNat → ∃ w : Vector Word 64,
    exec (.expw t) s =
      .next { s with W := w, SEQ := if t = 63 then ⟨5, 0⟩ else ⟨4, BitVec.ofNat 6 (t.toNat + 1)⟩ } ∧
    (sel64 w t).toNat =
      ((sel64 s.W (BitVec.ofNat 6 (t.toNat - 16))).toNat +
        (ssig0 (sel64 s.W (BitVec.ofNat 6 (t.toNat - 15)))).toNat +
        (sel64 s.W (BitVec.ofNat 6 (t.toNat - 7))).toNat +
        (ssig1 (sel64 s.W (BitVec.ofNat 6 (t.toNat - 2)))).toNat) % 2 ^ 32 ∧
    ∀ u : BitVec 6, u ≠ t → sel64 w u = sel64 s.W u

/-- R183: the equations of SCHED. -/
def Obligations.ScheduleRecurrence : Prop :=
  ∀ (block : Vector Byte 64) (t : BitVec 6),
    (t.toNat < 16 → sel64 (schedule block) t =
      be32 (sel64 block (BitVec.ofNat 6 (4 * t.toNat))) (sel64 block (BitVec.ofNat 6 (4 * t.toNat + 1)))
        (sel64 block (BitVec.ofNat 6 (4 * t.toNat + 2))) (sel64 block (BitVec.ofNat 6 (4 * t.toNat + 3)))) ∧
    (16 ≤ t.toNat → sel64 (schedule block) t =
      sel64 (schedule block) (t - 16) + ssig0 (sel64 (schedule block) (t - 15)) +
        sel64 (schedule block) (t - 7) + ssig1 (sel64 (schedule block) (t - 2)))

/-- R180, R183: the 64 schedule operations leave `W = SCHED(BLOCK)`, whatever the state, and touch nothing else. -/
def Obligations.ScheduleOperationsComputeSchedule : Prop :=
  ∀ s : State, execList scheduleOps s = .next { s with W := schedule s.BLOCK, SEQ := ⟨5, 0⟩ }

/-! ## Rounds -/

/-- R201: INITV copies the eight hash words into `a..h` and leaves all else but SEQ. -/
def Obligations.InitvResult : Prop :=
  ∀ s : State, exec .initv s =
    .next { s with
      v := { a := s.H[0], b := s.H[1], c := s.H[2], d := s.H[3], e := s.H[4], f := s.H[5], g := s.H[6], h := s.H[7] }
      SEQ := ⟨6, 0⟩ }

/-- R202, R203, R204: one round, written out with library rotations; all else but SEQ is left. -/
def Obligations.RoundResult : Prop :=
  ∀ (t : BitVec 6) (s : State),
    let t1 : Word := s.v.h + (s.v.e.rotateRight 6 ^^^ s.v.e.rotateRight 11 ^^^ s.v.e.rotateRight 25) +
      ((s.v.e &&& s.v.f) ^^^ (~~~s.v.e &&& s.v.g)) + sel64 K t + sel64 s.W t
    let t2 : Word := (s.v.a.rotateRight 2 ^^^ s.v.a.rotateRight 13 ^^^ s.v.a.rotateRight 22) +
      ((s.v.a &&& s.v.b) ^^^ (s.v.a &&& s.v.c) ^^^ (s.v.b &&& s.v.c))
    exec (.round t) s =
      .next { s with
        v := { a := t1 + t2, b := s.v.a, c := s.v.b, d := s.v.c, e := s.v.d + t1, f := s.v.e, g := s.v.f, h := s.v.g }
        SEQ := if t = 63 then ⟨7, 0⟩ else ⟨6, BitVec.ofNat 6 (t.toNat + 1)⟩ }

/-- R202 (5): given `K[t]` and `W[t]` the round is invertible. -/
def Obligations.RoundIsInvertible : Prop :=
  ∀ (v v' : Vars) (k w : Word), rnd v k w = rnd v' k w → v = v'

/-- R205: FOLD adds `a..h` into `H` modulo `2^32`, counts the block and chooses FRAME or SERW; all else is left. -/
def Obligations.FoldResult : Prop :=
  ∀ s : State, s.N.toNat < blockCount s.L.toNat → ∃ (x : Vector Word 8) (n : BitVec 27),
    exec .fold s =
      .next { s with H := x, N := n, SEQ := if s.N.toNat + 1 < blockCount s.L.toNat then ⟨2, 0⟩ else ⟨8, 0⟩ } ∧
    n.toNat = s.N.toNat + 1 ∧
    x[0].toNat = (s.H[0].toNat + s.v.a.toNat) % 2 ^ 32 ∧ x[1].toNat = (s.H[1].toNat + s.v.b.toNat) % 2 ^ 32 ∧
    x[2].toNat = (s.H[2].toNat + s.v.c.toNat) % 2 ^ 32 ∧ x[3].toNat = (s.H[3].toNat + s.v.d.toNat) % 2 ^ 32 ∧
    x[4].toNat = (s.H[4].toNat + s.v.e.toNat) % 2 ^ 32 ∧ x[5].toNat = (s.H[5].toNat + s.v.f.toNat) % 2 ^ 32 ∧
    x[6].toNat = (s.H[6].toNat + s.v.g.toNat) % 2 ^ 32 ∧ x[7].toNat = (s.H[7].toNat + s.v.h.toNat) % 2 ^ 32

/-- R206: the micro-operations of one block leave `H = COMPRESS(H, BLOCK)`; the block, the length and the two spaces are
untouched. -/
def Obligations.CompressOperationsComputeCompress : Prop :=
  ∀ s : State, s.N.toNat < blockCount s.L.toNat → ∃ (v : Vars) (n : BitVec 27),
    execList compressOps s =
      .next { s with
        H := compress s.H s.BLOCK
        W := schedule s.BLOCK
        v := v
        N := n
        SEQ := if s.N.toNat + 1 < blockCount s.L.toNat then ⟨2, 0⟩ else ⟨8, 0⟩ } ∧
    n.toNat = s.N.toNat + 1

/-! ## Driver and serializer -/

/-- R242: the inert accesses; the ignored writes change nothing at all, RDCTRL and RDRSVD return 0 and write nothing. -/
def Obligations.InertAccesses : Prop :=
  ∀ (s : State) (d : Word) (reg : BitVec 4),
    exec (.wrstatus d) s = .next s ∧ exec (.wrrsvd reg d) s = .next s ∧
    exec (.rdctrl d) s = .next { s with readData := 0 } ∧ exec (.rdrsvd reg d) s = .next { s with readData := 0 }

/-- R222: SEED, with the seed constants written out; and R33's account of the 64 round constants: `K[t]` is the first 32
bits of the fractional part of the cube root of the `t`-th prime, here as the inequalities `r^3 <= p * 2^96 < (r + 1)^3` for
`r = floor(2^32 * cuberoot(p))`, whose last 32 bits are `K[t]`. The source gives no values for either table, they are those of
93_implementation_defined.md G1 and G2 (log 13). -/
def Obligations.SeedResultAndRoundConstants : Prop :=
  (∀ s : State, exec .seed s =
    .next { s with
      H := #v[0x6a09e667, 0xbb67ae85, 0x3c6ef372, 0xa54ff53a, 0x510e527f, 0x9b05688c, 0x1f83d9ab, 0x5be0cd19]
      N := 0
      SEQ := ⟨2, 0⟩ }) ∧
  ∀ t : BitVec 6, ∃ n : Nat,
    (n * 2 ^ 32 + (sel64 K t).toNat) ^ 3 ≤ Nat.nth Nat.Prime t.toNat * 2 ^ 96 ∧
    Nat.nth Nat.Prime t.toNat * 2 ^ 96 < (n * 2 ^ 32 + (sel64 K t).toNat + 1) ^ 3

/-- R232: SERW `i` writes the four bytes of `H[i]`, most significant first, at `4i .. 4i + 3`, and leaves every other digest
byte and all else but SEQ. -/
def Obligations.SerwResult : Prop :=
  ∀ (i : BitVec 3) (s : State), ∃ dig : Memory,
    exec (.serw i) s =
      .next { s with DIG := dig, SEQ := if i = 7 then ⟨9, 0⟩ else ⟨8, BitVec.ofNat 6 (i.toNat + 1)⟩ } ∧
    (∀ k, k < 4 → Memory.lookup dig (4 * i.toNat + k) =
      some (BitVec.ofNat 8 ((sel8 s.H i).toNat / 2 ^ (24 - 8 * k)))) ∧
    ∀ j, (j < 4 * i.toNat ∨ 4 * i.toNat + 3 < j) → Memory.lookup dig j = Memory.lookup s.DIG j

/-- R233: after SERW 0 .. SERW 7 the digest space is `SER(H)`, and `H` is not changed. -/
def Obligations.SerializeOperationsWriteDigest : Prop :=
  ∀ s : State, ∃ dig : Memory,
    execList serializeOps s = .next { s with DIG := dig, SEQ := ⟨9, 0⟩ } ∧
    ∀ j : BitVec 5, Memory.lookup dig j.toNat = some (serialByte s.H j)

/-- R234: FINISH. -/
def Obligations.FinishResult : Prop :=
  ∀ s : State, exec .finish s = .next { s with BUSY := false, DONE := true, SEQ := ⟨0, 0⟩ }

/-- R221: the successor function, row by row. -/
def Obligations.SuccessorFunction : Prop :=
  ∀ s t : State, coreStep s = .next t →
    (s.SEQ = ⟨0, 0⟩ → t.SEQ = ⟨0, 0⟩) ∧ (s.SEQ = ⟨1, 0⟩ → t.SEQ = ⟨2, 0⟩) ∧ (s.SEQ = ⟨2, 0⟩ → t.SEQ = ⟨3, 0⟩) ∧
    (∀ k, k < 15 → s.SEQ = ⟨3, BitVec.ofNat 6 k⟩ → t.SEQ = ⟨3, BitVec.ofNat 6 (k + 1)⟩) ∧
    (s.SEQ = ⟨3, 15⟩ → t.SEQ = ⟨4, 16⟩) ∧
    (∀ k, 16 ≤ k → k < 63 → s.SEQ = ⟨4, BitVec.ofNat 6 k⟩ → t.SEQ = ⟨4, BitVec.ofNat 6 (k + 1)⟩) ∧
    (s.SEQ = ⟨4, 63⟩ → t.SEQ = ⟨5, 0⟩) ∧ (s.SEQ = ⟨5, 0⟩ → t.SEQ = ⟨6, 0⟩) ∧
    (∀ k, k < 63 → s.SEQ = ⟨6, BitVec.ofNat 6 k⟩ → t.SEQ = ⟨6, BitVec.ofNat 6 (k + 1)⟩) ∧
    (s.SEQ = ⟨6, 63⟩ → t.SEQ = ⟨7, 0⟩) ∧
    (s.SEQ = ⟨7, 0⟩ → t.N.toNat = s.N.toNat + 1 ∧
      (s.N.toNat + 1 < blockCount s.L.toNat → t.SEQ = ⟨2, 0⟩) ∧
      (s.N.toNat + 1 = blockCount s.L.toNat → t.SEQ = ⟨8, 0⟩)) ∧
    (∀ k, k < 7 → s.SEQ = ⟨8, BitVec.ofNat 6 k⟩ → t.SEQ = ⟨8, BitVec.ofNat 6 (k + 1)⟩) ∧
    (s.SEQ = ⟨8, 7⟩ → t.SEQ = ⟨9, 0⟩) ∧ (s.SEQ = ⟨9, 0⟩ → t.SEQ = ⟨0, 0⟩)

/-- R311: in every state that meets the sequencer invariants the core's turn answers, except at a FRAME whose read is not
admitted; at IDLE, where R220 has no step, the turn passes and changes nothing (the model's choice, log 2). -/
def Obligations.CoreIsEnabled : Prop :=
  (∀ s : State, exec .idle s = .next s) ∧
  ∀ s : State, sequencerInv s → (s.SEQ.uop = 2 → readsAdmitted s) → ∃ t, coreStep s = .next t

/-! ## Host operations -/

/-- R238, R241, R27: WRLEN stores the length and touches nothing else; RDLEN returns it; a read after a write gives it. -/
def Obligations.LengthRegister : Prop :=
  ∀ (s : State) (x d : Word),
    exec (.wrlen x) s = .next { s with LEN := x } ∧
    exec (.rdlen d) s = .next { s with readData := s.LEN } ∧
    exec (.rdlen d) { s with LEN := x } = .next { s with LEN := x, readData := x }

/-- R239: a START on an idle core is accepted, under the launch premises R300 (c) and R302, which are about the bindings (the
bindings' form: log 19; that it clears the marks of breaches: log 8). -/
def Obligations.StartIsAccepted : Prop :=
  ∀ (d : Word) (s : State), d.toNat % 2 = 1 → s.BUSY = false →
    (∀ j, j < 32 → Binding.permits s.digBinding j = true) →
    (∀ i j a, i < s.LEN.toNat → j < 32 → Binding.address s.msgBinding i = some a →
      Binding.address s.digBinding j ≠ some a) →
    exec (.wrctrl d) s =
      .next { s with L := s.LEN, BUSY := true, DONE := false, SEQ := ⟨1, 0⟩, digTaint := 0 }

/-- R239: with bit 0 clear, or while the core is busy, nothing happens. -/
def Obligations.StartIsIgnored : Prop :=
  ∀ (d : Word) (s : State), (d.toNat % 2 = 0 ∨ s.BUSY = true) → exec (.wrctrl d) s = .next s

/-- R300 (c), R302: a launch without a writable digest buffer, or with overlapping buffers, is refused (log 9). -/
def Obligations.ForbiddenLaunchIsRefused : Prop :=
  ∀ (d : Word) (s : State), d.toNat % 2 = 1 → s.BUSY = false →
    (∀ j, j < 32 → Binding.permits s.digBinding j = false → exec (.wrctrl d) s = .refused .digestNotWritable) ∧
    ((∀ j, j < 32 → Binding.permits s.digBinding j = true) →
      ∀ i j a, i < s.LEN.toNat → j < 32 → Binding.address s.msgBinding i = some a →
        Binding.address s.digBinding j = some a → exec (.wrctrl d) s = .refused .buffersOverlap)

/-- R240, R26: RDSTATUS returns `2 * DONE + BUSY` and writes nothing; with the flags exclusive that is 0, 1 or 2. -/
def Obligations.StatusRead : Prop :=
  ∀ (d : Word) (s : State), ∃ x : Word,
    exec (.rdstatus d) s = .next { s with readData := x } ∧ x.toNat = 2 * s.DONE.toNat + s.BUSY.toNat ∧
    (flagsExclusive s → x = 0 ∨ x = 1 ∨ x = 2)

/-- R305, R237: while the core is busy every register access completes and changes at most LEN and what the host got back. -/
def Obligations.HostAccessWhileBusy : Prop :=
  ∀ (i : Instr) (s : State), isHostAccess i = true → s.BUSY = true → ∃ x y : Word,
    exec i s = .next { s with LEN := x, readData := y }

/-- R243, R303: a host load of the digest space completes and changes nothing but what the host gets back and the count of
draws; while `DONE = 1` it returns the digest byte (unless the host broke R301 or R303 for that byte: log 8; free values:
log 7). -/
def Obligations.HostDigestLoad : Prop :=
  ∀ (s : State) (j : BitVec 5) (rest : List Turn), s.turns = .loadDig j :: rest →
    (∃ (b : Byte) (n : Nat), step s = .next { s with turns := rest, loadData := b, draws := n }) ∧
    ∀ b : Byte, s.DONE = true → s.digTaint.getLsbD j.toNat = false → Memory.lookup s.DIG j.toNat = some b →
      step s = .next { s with turns := rest, loadData := b }

/-- R243, R305 with logs 8 and 9: a host store sets its message byte and no other. A digest byte at the same platform address
is set and marked as by a store to the digest buffer; below `L` while busy the store breaks R301 and every digest byte is
marked; otherwise nothing else changes. R61, R300 (b): which message reads are admitted is the binding's matter, a store
changes none. -/
def Obligations.HostMessageStore : Prop :=
  ∀ (s : State) (i : BitVec 32) (b : Byte) (rest : List Turn), s.turns = .storeMsg i b :: rest →
    ∃ (m dig : Memory) (x : BitVec 32),
      step s = .next { s with turns := rest, MSG := m, DIG := dig, digTaint := x } ∧
      Memory.lookup m i.toNat = some b ∧ (∀ k, k ≠ i.toNat → Memory.lookup m k = Memory.lookup s.MSG k) ∧
      (∀ k a, k < 32 → Binding.address s.msgBinding i.toNat = some a → Binding.address s.digBinding k = some a →
        Memory.lookup dig k = some b ∧ x.getLsbD k = s.BUSY) ∧
      (∀ k, (∀ a, k < 32 → Binding.address s.msgBinding i.toNat = some a → Binding.address s.digBinding k ≠ some a) →
        Memory.lookup dig k = Memory.lookup s.DIG k ∧
        (s.BUSY = true → i.toNat < s.L.toNat → k < 32 → x.getLsbD k = true) ∧
        (s.BUSY = false ∨ s.L.toNat ≤ i.toNat → x.getLsbD k = s.digTaint.getLsbD k)) ∧
      (∀ k, (memReadMsg { s with MSG := m } k).isSome = (memReadMsg s k).isSome) ∧
      (Binding.permits s.msgBinding i.toNat = true → memReadMsg { s with MSG := m } i.toNat = some b)

/-- R303 with log 8: a host store sets its digest byte and no other, and marks that byte exactly if the core is busy; after
`DONE = 1` the buffer is the host's, and a later load returns what the host wrote. -/
def Obligations.HostDigestStore : Prop :=
  ∀ (s : State) (j : BitVec 5) (b : Byte) (rest : List Turn), s.turns = .storeDig j b :: rest →
    ∃ (dig : Memory) (x : BitVec 32),
      step s = .next { s with turns := rest, DIG := dig, digTaint := x } ∧
      Memory.lookup dig j.toNat = some b ∧ x.getLsbD j.toNat = s.BUSY ∧
      (∀ k, k ≠ j.toNat → Memory.lookup dig k = Memory.lookup s.DIG k ∧ x.getLsbD k = s.digTaint.getLsbD k) ∧
      ∀ rest', rest = .loadDig j :: rest' → s.DONE = true → s.BUSY = false →
        Host.Core.run Sys2Proof.core 2 s =
          .next ({ s with turns := rest', DIG := dig, digTaint := x, loadData := b } : State)

/-! ## Reset -/

/-- R290, in the form the model chooses for it (logs 6 and 7): the reset is a turn of its own, one step to SEQ = (IDLE, 0),
BUSY = DONE = 0, LEN = 0; MSG, DIG and the marks are not touched; the hidden registers hold free values, drawn once. -/
def Obligations.ResetTurn : Prop :=
  ∀ (s : State) (rest : List Turn), s.turns = .reset :: rest →
    ∃ (h : Vector Word 8) (v : Vars) (w : Vector Word 64) (block : Vector Byte 64) (l : Word) (n : BitVec 27),
      step s =
        .next { s with
          turns := rest, SEQ := ⟨0, 0⟩, BUSY := false, DONE := false, LEN := 0, H := h, v := v, W := w,
          BLOCK := block, L := l, N := n, draws := s.draws + 1 }

/-- R39: the elements to which the reset table gives a value. -/
def Obligations.ResetValues : Prop :=
  State.reset.SEQ = ⟨0, 0⟩ ∧ State.reset.BUSY = false ∧ State.reset.DONE = false ∧ State.reset.LEN = 0

/-- R24, R35, R36, R225: the reset state meets the invariants that every step keeps. Nothing here rests on the zeros log 5
chooses for the hidden registers: at IDLE the invariants say nothing of them. -/
def Obligations.ResetMeetsInvariants : Prop :=
  sequencerInv State.reset ∧ memoryWf State.reset ∧ tracksFunction State.reset

/-! ## The whole machine -/

/-- R20: which operation writes which register, and no operation writes the message space. R38: the three bindings are
parameters, no step changes them. -/
def Obligations.RegisterWriters : Prop :=
  (∀ s t : State, step s = .next t →
    t.msgBinding = s.msgBinding ∧ t.digBinding = s.digBinding ∧ t.regBinding = s.regBinding) ∧
  ∀ (i : Instr) (s t : State), exec i s = .next t →
    (i ≠ .seed → i ≠ .fold → t.H = s.H ∧ t.N = s.N) ∧
    (i ≠ .initv → (∀ k, i ≠ .round k) → t.v = s.v) ∧
    ((∀ k, i ≠ .loadw k) → (∀ k, i ≠ .expw k) → t.W = s.W) ∧
    (i ≠ .frame → t.BLOCK = s.BLOCK) ∧
    ((∀ d, i ≠ .wrctrl d) → t.L = s.L) ∧
    ((∀ d, i ≠ .wrlen d) → t.LEN = s.LEN) ∧
    (i ≠ .finish → (∀ d, i ≠ .wrctrl d) → t.BUSY = s.BUSY ∧ t.DONE = s.DONE) ∧
    ((∀ k, i ≠ .serw k) → t.DIG = s.DIG) ∧
    t.MSG = s.MSG

/-- R28, R225 (4): while the core stays busy the latched length does not change, whatever the step. -/
def Obligations.LatchedLengthIsFixedWhileBusy : Prop :=
  ∀ s t : State, step s = .next t → s.BUSY = true → t.BUSY = true → t.L = s.L

/-- R24, R70 (3), R305: a step that lowers BUSY is FINISH, which raises DONE with it, or the reset; a step that raises DONE is
FINISH, which lowers BUSY with it; a step that raises BUSY is an accepted START, after which DONE is 0; a step that lowers
DONE is an accepted START or the reset. -/
def Obligations.FlagsChangeOnlyAtStartFinishReset : Prop :=
  ∀ s t : State, step s = .next t →
    (s.BUSY = true → t.BUSY = false →
      (s.SEQ = ⟨9, 0⟩ ∧ t.DONE = true ∧ t.SEQ = ⟨0, 0⟩) ∨ ∃ rest, s.turns = .reset :: rest) ∧
    (s.DONE = false → t.DONE = true → s.SEQ = ⟨9, 0⟩ ∧ t.BUSY = false ∧ t.SEQ = ⟨0, 0⟩) ∧
    (s.BUSY = false → t.BUSY = true →
      t.DONE = false ∧ t.L = s.LEN ∧ t.SEQ = ⟨1, 0⟩ ∧
        ∃ turn rest d, s.turns = turn :: rest ∧ d.toNat % 2 = 1 ∧ exec (.wrctrl d) { s with turns := rest } = .next t) ∧
    (s.DONE = true → t.DONE = false →
      (s.BUSY = false ∧ t.BUSY = true) ∨ ∃ rest, s.turns = .reset :: rest)

/-- R24, R225 (1) to (3): every step keeps the sequencer invariants. -/
def Obligations.StepKeepsSequencerInvariants : Prop :=
  ∀ s t : State, sequencerInv s → step s = .next t → sequencerInv t

/-- R35, R36: every step keeps both byte spaces in canonical form, within their indices. -/
def Obligations.StepKeepsMemoryForm : Prop :=
  ∀ s t : State, memoryWf s → step s = .next t → memoryWf t

/-- R225 (5) and its counterparts: under every interleaving each step keeps the hidden state in line with the function of
R244, as long as the host has not changed the message while the core was busy (log 8). -/
def Obligations.StepKeepsFunctionalInvariant : Prop :=
  ∀ s t : State, sequencerInv s → tracksFunction s → step s = .next t → tracksFunction t

/-- R236, R244: from a state that meets the invariants, FINISH ends the invocation with the digest of the message in the
digest space, in every byte that no breach of R301 or R303 marked. R76, R303: as long as `DONE` stays 1 no step changes a
digest byte or its mark, but a host store to that byte, under its digest index or as a message byte that stands at the same
address (log 9). -/
def Obligations.DigestIsRightAtFinishAndKept : Prop :=
  (∀ s : State, sequencerInv s → tracksFunction s → s.SEQ = ⟨9, 0⟩ → s.digTaint ≠ BitVec.allOnes 32 →
    ∃ t, coreStep s = .next t ∧ invocationEnded t ∧
      ∀ j : BitVec 5, t.digTaint.getLsbD j.toNat = false →
        Memory.lookup t.DIG j.toNat = some (sha256Byte s.L (message s) j)) ∧
  ∀ (s t : State) (j : BitVec 5), sequencerInv s → s.DONE = true → step s = .next t → t.DONE = true →
    (∀ b rest, s.turns ≠ .storeDig j b :: rest) →
    (∀ i b rest a, s.turns = .storeMsg i b :: rest → Binding.address s.msgBinding i.toNat = some a →
      Binding.address s.digBinding j.toNat ≠ some a) →
    Memory.lookup t.DIG j.toNat = Memory.lookup s.DIG j.toNat ∧
      t.digTaint.getLsbD j.toNat = s.digTaint.getLsbD j.toNat

/-- R223, R224: from SEED the core, left alone, executes exactly the trace of an invocation, in that many turns. -/
def Obligations.InvocationTraceIsExact : Prop :=
  ∀ s : State, s.SEQ = ⟨1, 0⟩ → messageReadable s →
    traceOf (10 + 131 * blockCount s.L.toNat) s = invocationOps s.L.toNat ∧
    (invocationOps s.L.toNat).length = 10 + 131 * blockCount s.L.toNat

/-- R244: an accepted START whose message reads are admitted, the host keeping its duties, reaches a final state with the
digest of the message, after the START and the turns of R224. -/
def Obligations.InvocationComputesSha256 : Prop :=
  ∀ (s : State) (d : Word), s.turns = [.access (hostWord true 0 d)] → d.toNat % 2 = 1 → s.BUSY = false →
    launchAllowed s → (∀ i, i < s.LEN.toNat → (memReadMsg s i).isSome = true) →
    ∃ t : State,
      Host.Core.run Sys2Proof.core (11 + 131 * blockCount s.LEN.toNat) s = .next t ∧ invocationEnded t ∧
      t.MSG = s.MSG ∧ t.LEN = s.LEN ∧
      ∀ j : BitVec 5, Memory.lookup t.DIG j.toNat = some (sha256Byte s.LEN (message s) j)

/-- R245, R247, R40: two invocations of the same message leave the same digest, whatever the two machines held before. -/
def Obligations.DigestDependsOnMessageOnly : Prop :=
  ∀ (s s' : State) (d d' : Word),
    s.turns = [.access (hostWord true 0 d)] → s'.turns = [.access (hostWord true 0 d')] →
    d.toNat % 2 = 1 → d'.toNat % 2 = 1 → s.BUSY = false → s'.BUSY = false → launchAllowed s → launchAllowed s' →
    s'.LEN = s.LEN →
    (∀ i, i < s.LEN.toNat → (memReadMsg s i).isSome = true ∧ memReadMsg s' i = memReadMsg s i) →
    ∃ t t' : State,
      Host.Core.run Sys2Proof.core (11 + 131 * blockCount s.LEN.toNat) s = .next t ∧
      Host.Core.run Sys2Proof.core (11 + 131 * blockCount s.LEN.toNat) s' = .next t' ∧
      invocationEnded t ∧ invocationEnded t' ∧
      ∀ j : BitVec 5,
        (Memory.lookup t.DIG j.toNat).isSome = true ∧ Memory.lookup t'.DIG j.toNat = Memory.lookup t.DIG j.toNat
end

