-- ==== Sys2Proof/Laws/State.lean ====
section
/-! SUPPORT. Each named update of State, field by field: what it writes and what it leaves. -/

namespace Sys2Proof.Machine

/-! `SEQ <- q`. -/

@[simp] theorem setSEQ_H (q : Seq) (s : State) : (setSEQ q s).H = s.H := rfl
@[simp] theorem setSEQ_v (q : Seq) (s : State) : (setSEQ q s).v = s.v := rfl
@[simp] theorem setSEQ_W (q : Seq) (s : State) : (setSEQ q s).W = s.W := rfl
@[simp] theorem setSEQ_BLOCK (q : Seq) (s : State) : (setSEQ q s).BLOCK = s.BLOCK := rfl
@[simp] theorem setSEQ_L (q : Seq) (s : State) : (setSEQ q s).L = s.L := rfl
@[simp] theorem setSEQ_N (q : Seq) (s : State) : (setSEQ q s).N = s.N := rfl
@[simp] theorem setSEQ_SEQ (q : Seq) (s : State) : (setSEQ q s).SEQ = q := rfl
@[simp] theorem setSEQ_LEN (q : Seq) (s : State) : (setSEQ q s).LEN = s.LEN := rfl
@[simp] theorem setSEQ_BUSY (q : Seq) (s : State) : (setSEQ q s).BUSY = s.BUSY := rfl
@[simp] theorem setSEQ_DONE (q : Seq) (s : State) : (setSEQ q s).DONE = s.DONE := rfl
@[simp] theorem setSEQ_MSG (q : Seq) (s : State) : (setSEQ q s).MSG = s.MSG := rfl
@[simp] theorem setSEQ_DIG (q : Seq) (s : State) : (setSEQ q s).DIG = s.DIG := rfl
@[simp] theorem setSEQ_msgBinding (q : Seq) (s : State) : (setSEQ q s).msgBinding = s.msgBinding := rfl
@[simp] theorem setSEQ_digBinding (q : Seq) (s : State) : (setSEQ q s).digBinding = s.digBinding := rfl
@[simp] theorem setSEQ_regBinding (q : Seq) (s : State) : (setSEQ q s).regBinding = s.regBinding := rfl
@[simp] theorem setSEQ_powerOn (q : Seq) (s : State) : (setSEQ q s).powerOn = s.powerOn := rfl
@[simp] theorem setSEQ_readData (q : Seq) (s : State) : (setSEQ q s).readData = s.readData := rfl
@[simp] theorem setSEQ_loadData (q : Seq) (s : State) : (setSEQ q s).loadData = s.loadData := rfl
@[simp] theorem setSEQ_turns (q : Seq) (s : State) : (setSEQ q s).turns = s.turns := rfl
@[simp] theorem setSEQ_digTaint (q : Seq) (s : State) : (setSEQ q s).digTaint = s.digTaint := rfl
@[simp] theorem setSEQ_draws (q : Seq) (s : State) : (setSEQ q s).draws = s.draws := rfl

/-! A register read's answer. -/

@[simp] theorem returnToHost_H (x : Word) (s : State) : (returnToHost x s).H = s.H := rfl
@[simp] theorem returnToHost_v (x : Word) (s : State) : (returnToHost x s).v = s.v := rfl
@[simp] theorem returnToHost_W (x : Word) (s : State) : (returnToHost x s).W = s.W := rfl
@[simp] theorem returnToHost_BLOCK (x : Word) (s : State) : (returnToHost x s).BLOCK = s.BLOCK := rfl
@[simp] theorem returnToHost_L (x : Word) (s : State) : (returnToHost x s).L = s.L := rfl
@[simp] theorem returnToHost_N (x : Word) (s : State) : (returnToHost x s).N = s.N := rfl
@[simp] theorem returnToHost_SEQ (x : Word) (s : State) : (returnToHost x s).SEQ = s.SEQ := rfl
@[simp] theorem returnToHost_LEN (x : Word) (s : State) : (returnToHost x s).LEN = s.LEN := rfl
@[simp] theorem returnToHost_BUSY (x : Word) (s : State) : (returnToHost x s).BUSY = s.BUSY := rfl
@[simp] theorem returnToHost_DONE (x : Word) (s : State) : (returnToHost x s).DONE = s.DONE := rfl
@[simp] theorem returnToHost_MSG (x : Word) (s : State) : (returnToHost x s).MSG = s.MSG := rfl
@[simp] theorem returnToHost_DIG (x : Word) (s : State) : (returnToHost x s).DIG = s.DIG := rfl
@[simp] theorem returnToHost_msgBinding (x : Word) (s : State) : (returnToHost x s).msgBinding = s.msgBinding := rfl
@[simp] theorem returnToHost_digBinding (x : Word) (s : State) : (returnToHost x s).digBinding = s.digBinding := rfl
@[simp] theorem returnToHost_regBinding (x : Word) (s : State) : (returnToHost x s).regBinding = s.regBinding := rfl
@[simp] theorem returnToHost_powerOn (x : Word) (s : State) : (returnToHost x s).powerOn = s.powerOn := rfl
@[simp] theorem returnToHost_readData (x : Word) (s : State) : (returnToHost x s).readData = x := rfl
@[simp] theorem returnToHost_loadData (x : Word) (s : State) : (returnToHost x s).loadData = s.loadData := rfl
@[simp] theorem returnToHost_turns (x : Word) (s : State) : (returnToHost x s).turns = s.turns := rfl
@[simp] theorem returnToHost_digTaint (x : Word) (s : State) : (returnToHost x s).digTaint = s.digTaint := rfl
@[simp] theorem returnToHost_draws (x : Word) (s : State) : (returnToHost x s).draws = s.draws := rfl

/-! `MemWrite(DIG, j, 1, b)`. -/

@[simp] theorem memWriteDig_H (j : BitVec 5) (b : Byte) (s : State) : (memWriteDig j b s).H = s.H := rfl
@[simp] theorem memWriteDig_v (j : BitVec 5) (b : Byte) (s : State) : (memWriteDig j b s).v = s.v := rfl
@[simp] theorem memWriteDig_W (j : BitVec 5) (b : Byte) (s : State) : (memWriteDig j b s).W = s.W := rfl
@[simp] theorem memWriteDig_BLOCK (j : BitVec 5) (b : Byte) (s : State) : (memWriteDig j b s).BLOCK = s.BLOCK := rfl
@[simp] theorem memWriteDig_L (j : BitVec 5) (b : Byte) (s : State) : (memWriteDig j b s).L = s.L := rfl
@[simp] theorem memWriteDig_N (j : BitVec 5) (b : Byte) (s : State) : (memWriteDig j b s).N = s.N := rfl
@[simp] theorem memWriteDig_SEQ (j : BitVec 5) (b : Byte) (s : State) : (memWriteDig j b s).SEQ = s.SEQ := rfl
@[simp] theorem memWriteDig_LEN (j : BitVec 5) (b : Byte) (s : State) : (memWriteDig j b s).LEN = s.LEN := rfl
@[simp] theorem memWriteDig_BUSY (j : BitVec 5) (b : Byte) (s : State) : (memWriteDig j b s).BUSY = s.BUSY := rfl
@[simp] theorem memWriteDig_DONE (j : BitVec 5) (b : Byte) (s : State) : (memWriteDig j b s).DONE = s.DONE := rfl
@[simp] theorem memWriteDig_MSG (j : BitVec 5) (b : Byte) (s : State) : (memWriteDig j b s).MSG = s.MSG := rfl
@[simp] theorem memWriteDig_DIG (j : BitVec 5) (b : Byte) (s : State) : (memWriteDig j b s).DIG = Memory.write s.DIG j.toNat b := rfl
@[simp] theorem memWriteDig_msgBinding (j : BitVec 5) (b : Byte) (s : State) : (memWriteDig j b s).msgBinding = s.msgBinding := rfl
@[simp] theorem memWriteDig_digBinding (j : BitVec 5) (b : Byte) (s : State) : (memWriteDig j b s).digBinding = s.digBinding := rfl
@[simp] theorem memWriteDig_regBinding (j : BitVec 5) (b : Byte) (s : State) : (memWriteDig j b s).regBinding = s.regBinding := rfl
@[simp] theorem memWriteDig_powerOn (j : BitVec 5) (b : Byte) (s : State) : (memWriteDig j b s).powerOn = s.powerOn := rfl
@[simp] theorem memWriteDig_readData (j : BitVec 5) (b : Byte) (s : State) : (memWriteDig j b s).readData = s.readData := rfl
@[simp] theorem memWriteDig_loadData (j : BitVec 5) (b : Byte) (s : State) : (memWriteDig j b s).loadData = s.loadData := rfl
@[simp] theorem memWriteDig_turns (j : BitVec 5) (b : Byte) (s : State) : (memWriteDig j b s).turns = s.turns := rfl
@[simp] theorem memWriteDig_digTaint (j : BitVec 5) (b : Byte) (s : State) : (memWriteDig j b s).digTaint = s.digTaint := rfl
@[simp] theorem memWriteDig_draws (j : BitVec 5) (b : Byte) (s : State) : (memWriteDig j b s).draws = s.draws := rfl

/-! The accepted START. -/

@[simp] theorem acceptStart_H (s : State) : (acceptStart s).H = s.H := rfl
@[simp] theorem acceptStart_v (s : State) : (acceptStart s).v = s.v := rfl
@[simp] theorem acceptStart_W (s : State) : (acceptStart s).W = s.W := rfl
@[simp] theorem acceptStart_BLOCK (s : State) : (acceptStart s).BLOCK = s.BLOCK := rfl
@[simp] theorem acceptStart_L (s : State) : (acceptStart s).L = s.LEN := rfl
@[simp] theorem acceptStart_N (s : State) : (acceptStart s).N = s.N := rfl
@[simp] theorem acceptStart_SEQ (s : State) : (acceptStart s).SEQ = seqSeed := rfl
@[simp] theorem acceptStart_LEN (s : State) : (acceptStart s).LEN = s.LEN := rfl
@[simp] theorem acceptStart_BUSY (s : State) : (acceptStart s).BUSY = true := rfl
@[simp] theorem acceptStart_DONE (s : State) : (acceptStart s).DONE = false := rfl
@[simp] theorem acceptStart_MSG (s : State) : (acceptStart s).MSG = s.MSG := rfl
@[simp] theorem acceptStart_DIG (s : State) : (acceptStart s).DIG = s.DIG := rfl
@[simp] theorem acceptStart_msgBinding (s : State) : (acceptStart s).msgBinding = s.msgBinding := rfl
@[simp] theorem acceptStart_digBinding (s : State) : (acceptStart s).digBinding = s.digBinding := rfl
@[simp] theorem acceptStart_regBinding (s : State) : (acceptStart s).regBinding = s.regBinding := rfl
@[simp] theorem acceptStart_powerOn (s : State) : (acceptStart s).powerOn = s.powerOn := rfl
@[simp] theorem acceptStart_readData (s : State) : (acceptStart s).readData = s.readData := rfl
@[simp] theorem acceptStart_loadData (s : State) : (acceptStart s).loadData = s.loadData := rfl
@[simp] theorem acceptStart_turns (s : State) : (acceptStart s).turns = s.turns := rfl
@[simp] theorem acceptStart_digTaint (s : State) : (acceptStart s).digTaint = 0 := rfl
@[simp] theorem acceptStart_draws (s : State) : (acceptStart s).draws = s.draws := rfl

/-! The flags after FINISH. -/

@[simp] theorem finishFlags_H (s : State) : (finishFlags s).H = s.H := rfl
@[simp] theorem finishFlags_v (s : State) : (finishFlags s).v = s.v := rfl
@[simp] theorem finishFlags_W (s : State) : (finishFlags s).W = s.W := rfl
@[simp] theorem finishFlags_BLOCK (s : State) : (finishFlags s).BLOCK = s.BLOCK := rfl
@[simp] theorem finishFlags_L (s : State) : (finishFlags s).L = s.L := rfl
@[simp] theorem finishFlags_N (s : State) : (finishFlags s).N = s.N := rfl
@[simp] theorem finishFlags_SEQ (s : State) : (finishFlags s).SEQ = s.SEQ := rfl
@[simp] theorem finishFlags_LEN (s : State) : (finishFlags s).LEN = s.LEN := rfl
@[simp] theorem finishFlags_BUSY (s : State) : (finishFlags s).BUSY = false := rfl
@[simp] theorem finishFlags_DONE (s : State) : (finishFlags s).DONE = true := rfl
@[simp] theorem finishFlags_MSG (s : State) : (finishFlags s).MSG = s.MSG := rfl
@[simp] theorem finishFlags_DIG (s : State) : (finishFlags s).DIG = s.DIG := rfl
@[simp] theorem finishFlags_msgBinding (s : State) : (finishFlags s).msgBinding = s.msgBinding := rfl
@[simp] theorem finishFlags_digBinding (s : State) : (finishFlags s).digBinding = s.digBinding := rfl
@[simp] theorem finishFlags_regBinding (s : State) : (finishFlags s).regBinding = s.regBinding := rfl
@[simp] theorem finishFlags_powerOn (s : State) : (finishFlags s).powerOn = s.powerOn := rfl
@[simp] theorem finishFlags_readData (s : State) : (finishFlags s).readData = s.readData := rfl
@[simp] theorem finishFlags_loadData (s : State) : (finishFlags s).loadData = s.loadData := rfl
@[simp] theorem finishFlags_turns (s : State) : (finishFlags s).turns = s.turns := rfl
@[simp] theorem finishFlags_digTaint (s : State) : (finishFlags s).digTaint = s.digTaint := rfl
@[simp] theorem finishFlags_draws (s : State) : (finishFlags s).draws = s.draws := rfl

/-! The four writes of SERW; the digest space itself is in Laws/Ops.lean. -/

@[simp] theorem serializeWord_H (i : BitVec 3) (s : State) : (serializeWord i s).H = s.H := rfl
@[simp] theorem serializeWord_v (i : BitVec 3) (s : State) : (serializeWord i s).v = s.v := rfl
@[simp] theorem serializeWord_W (i : BitVec 3) (s : State) : (serializeWord i s).W = s.W := rfl
@[simp] theorem serializeWord_BLOCK (i : BitVec 3) (s : State) : (serializeWord i s).BLOCK = s.BLOCK := rfl
@[simp] theorem serializeWord_L (i : BitVec 3) (s : State) : (serializeWord i s).L = s.L := rfl
@[simp] theorem serializeWord_N (i : BitVec 3) (s : State) : (serializeWord i s).N = s.N := rfl
@[simp] theorem serializeWord_SEQ (i : BitVec 3) (s : State) : (serializeWord i s).SEQ = s.SEQ := rfl
@[simp] theorem serializeWord_LEN (i : BitVec 3) (s : State) : (serializeWord i s).LEN = s.LEN := rfl
@[simp] theorem serializeWord_BUSY (i : BitVec 3) (s : State) : (serializeWord i s).BUSY = s.BUSY := rfl
@[simp] theorem serializeWord_DONE (i : BitVec 3) (s : State) : (serializeWord i s).DONE = s.DONE := rfl
@[simp] theorem serializeWord_MSG (i : BitVec 3) (s : State) : (serializeWord i s).MSG = s.MSG := rfl
@[simp] theorem serializeWord_msgBinding (i : BitVec 3) (s : State) : (serializeWord i s).msgBinding = s.msgBinding := rfl
@[simp] theorem serializeWord_digBinding (i : BitVec 3) (s : State) : (serializeWord i s).digBinding = s.digBinding := rfl
@[simp] theorem serializeWord_regBinding (i : BitVec 3) (s : State) : (serializeWord i s).regBinding = s.regBinding := rfl
@[simp] theorem serializeWord_powerOn (i : BitVec 3) (s : State) : (serializeWord i s).powerOn = s.powerOn := rfl
@[simp] theorem serializeWord_readData (i : BitVec 3) (s : State) : (serializeWord i s).readData = s.readData := rfl
@[simp] theorem serializeWord_loadData (i : BitVec 3) (s : State) : (serializeWord i s).loadData = s.loadData := rfl
@[simp] theorem serializeWord_turns (i : BitVec 3) (s : State) : (serializeWord i s).turns = s.turns := rfl
@[simp] theorem serializeWord_digTaint (i : BitVec 3) (s : State) : (serializeWord i s).digTaint = s.digTaint := rfl
@[simp] theorem serializeWord_draws (i : BitVec 3) (s : State) : (serializeWord i s).draws = s.draws := rfl

/-! A host store to the digest buffer. -/

@[simp] theorem hostStoreDig_H (j : BitVec 5) (b : Byte) (s : State) : (hostStoreDig j b s).H = s.H := rfl
@[simp] theorem hostStoreDig_v (j : BitVec 5) (b : Byte) (s : State) : (hostStoreDig j b s).v = s.v := rfl
@[simp] theorem hostStoreDig_W (j : BitVec 5) (b : Byte) (s : State) : (hostStoreDig j b s).W = s.W := rfl
@[simp] theorem hostStoreDig_BLOCK (j : BitVec 5) (b : Byte) (s : State) : (hostStoreDig j b s).BLOCK = s.BLOCK := rfl
@[simp] theorem hostStoreDig_L (j : BitVec 5) (b : Byte) (s : State) : (hostStoreDig j b s).L = s.L := rfl
@[simp] theorem hostStoreDig_N (j : BitVec 5) (b : Byte) (s : State) : (hostStoreDig j b s).N = s.N := rfl
@[simp] theorem hostStoreDig_SEQ (j : BitVec 5) (b : Byte) (s : State) : (hostStoreDig j b s).SEQ = s.SEQ := rfl
@[simp] theorem hostStoreDig_LEN (j : BitVec 5) (b : Byte) (s : State) : (hostStoreDig j b s).LEN = s.LEN := rfl
@[simp] theorem hostStoreDig_BUSY (j : BitVec 5) (b : Byte) (s : State) : (hostStoreDig j b s).BUSY = s.BUSY := rfl
@[simp] theorem hostStoreDig_DONE (j : BitVec 5) (b : Byte) (s : State) : (hostStoreDig j b s).DONE = s.DONE := rfl
@[simp] theorem hostStoreDig_MSG (j : BitVec 5) (b : Byte) (s : State) : (hostStoreDig j b s).MSG = s.MSG := rfl
@[simp] theorem hostStoreDig_DIG (j : BitVec 5) (b : Byte) (s : State) : (hostStoreDig j b s).DIG = Memory.write s.DIG j.toNat b := rfl
@[simp] theorem hostStoreDig_msgBinding (j : BitVec 5) (b : Byte) (s : State) : (hostStoreDig j b s).msgBinding = s.msgBinding := rfl
@[simp] theorem hostStoreDig_digBinding (j : BitVec 5) (b : Byte) (s : State) : (hostStoreDig j b s).digBinding = s.digBinding := rfl
@[simp] theorem hostStoreDig_regBinding (j : BitVec 5) (b : Byte) (s : State) : (hostStoreDig j b s).regBinding = s.regBinding := rfl
@[simp] theorem hostStoreDig_powerOn (j : BitVec 5) (b : Byte) (s : State) : (hostStoreDig j b s).powerOn = s.powerOn := rfl
@[simp] theorem hostStoreDig_readData (j : BitVec 5) (b : Byte) (s : State) : (hostStoreDig j b s).readData = s.readData := rfl
@[simp] theorem hostStoreDig_loadData (j : BitVec 5) (b : Byte) (s : State) : (hostStoreDig j b s).loadData = s.loadData := rfl
@[simp] theorem hostStoreDig_turns (j : BitVec 5) (b : Byte) (s : State) : (hostStoreDig j b s).turns = s.turns := rfl
@[simp] theorem hostStoreDig_draws (j : BitVec 5) (b : Byte) (s : State) : (hostStoreDig j b s).draws = s.draws := rfl

/-! Stores at several digest indices, and `ST MSG[i], b`: beside MSG only the digest space and the marks can change; what
they hold then is in Laws/Ops.lean. -/

theorem storeDigAll_eq (js : List (BitVec 5)) (b : Byte) (s : State) :
    storeDigAll js b s =
      { s with DIG := (storeDigAll js b s).DIG, digTaint := (storeDigAll js b s).digTaint } := by
  induction js generalizing s with
  | nil => rfl
  | cons j js ih =>
    show storeDigAll js b (hostStoreDig j b s) = _
    rw [ih]
    rfl

theorem hostStoreMsg_eq (i : BitVec 32) (b : Byte) (s : State) :
    hostStoreMsg i b s =
      { s with
        MSG := Memory.write s.MSG i.toNat b
        DIG := (hostStoreMsg i b s).DIG
        digTaint := (hostStoreMsg i b s).digTaint } :=
  storeDigAll_eq _ b _

@[simp] theorem hostStoreMsg_H (i : BitVec 32) (b : Byte) (s : State) : (hostStoreMsg i b s).H = s.H := by
  rw [hostStoreMsg_eq]
@[simp] theorem hostStoreMsg_v (i : BitVec 32) (b : Byte) (s : State) : (hostStoreMsg i b s).v = s.v := by
  rw [hostStoreMsg_eq]
@[simp] theorem hostStoreMsg_W (i : BitVec 32) (b : Byte) (s : State) : (hostStoreMsg i b s).W = s.W := by
  rw [hostStoreMsg_eq]
@[simp] theorem hostStoreMsg_BLOCK (i : BitVec 32) (b : Byte) (s : State) : (hostStoreMsg i b s).BLOCK = s.BLOCK := by
  rw [hostStoreMsg_eq]
@[simp] theorem hostStoreMsg_L (i : BitVec 32) (b : Byte) (s : State) : (hostStoreMsg i b s).L = s.L := by
  rw [hostStoreMsg_eq]
@[simp] theorem hostStoreMsg_N (i : BitVec 32) (b : Byte) (s : State) : (hostStoreMsg i b s).N = s.N := by
  rw [hostStoreMsg_eq]
@[simp] theorem hostStoreMsg_SEQ (i : BitVec 32) (b : Byte) (s : State) : (hostStoreMsg i b s).SEQ = s.SEQ := by
  rw [hostStoreMsg_eq]
@[simp] theorem hostStoreMsg_LEN (i : BitVec 32) (b : Byte) (s : State) : (hostStoreMsg i b s).LEN = s.LEN := by
  rw [hostStoreMsg_eq]
@[simp] theorem hostStoreMsg_BUSY (i : BitVec 32) (b : Byte) (s : State) : (hostStoreMsg i b s).BUSY = s.BUSY := by
  rw [hostStoreMsg_eq]
@[simp] theorem hostStoreMsg_DONE (i : BitVec 32) (b : Byte) (s : State) : (hostStoreMsg i b s).DONE = s.DONE := by
  rw [hostStoreMsg_eq]
@[simp] theorem hostStoreMsg_MSG (i : BitVec 32) (b : Byte) (s : State) : (hostStoreMsg i b s).MSG = Memory.write s.MSG i.toNat b := by
  rw [hostStoreMsg_eq]
@[simp] theorem hostStoreMsg_msgBinding (i : BitVec 32) (b : Byte) (s : State) : (hostStoreMsg i b s).msgBinding = s.msgBinding := by
  rw [hostStoreMsg_eq]
@[simp] theorem hostStoreMsg_digBinding (i : BitVec 32) (b : Byte) (s : State) : (hostStoreMsg i b s).digBinding = s.digBinding := by
  rw [hostStoreMsg_eq]
@[simp] theorem hostStoreMsg_regBinding (i : BitVec 32) (b : Byte) (s : State) : (hostStoreMsg i b s).regBinding = s.regBinding := by
  rw [hostStoreMsg_eq]
@[simp] theorem hostStoreMsg_powerOn (i : BitVec 32) (b : Byte) (s : State) : (hostStoreMsg i b s).powerOn = s.powerOn := by
  rw [hostStoreMsg_eq]
@[simp] theorem hostStoreMsg_readData (i : BitVec 32) (b : Byte) (s : State) : (hostStoreMsg i b s).readData = s.readData := by
  rw [hostStoreMsg_eq]
@[simp] theorem hostStoreMsg_loadData (i : BitVec 32) (b : Byte) (s : State) : (hostStoreMsg i b s).loadData = s.loadData := by
  rw [hostStoreMsg_eq]
@[simp] theorem hostStoreMsg_turns (i : BitVec 32) (b : Byte) (s : State) : (hostStoreMsg i b s).turns = s.turns := by
  rw [hostStoreMsg_eq]
@[simp] theorem hostStoreMsg_draws (i : BitVec 32) (b : Byte) (s : State) : (hostStoreMsg i b s).draws = s.draws := by
  rw [hostStoreMsg_eq]

/-! The external reset. -/

@[simp] theorem applyReset_SEQ (s : State) : (applyReset s).SEQ = seqIdle := rfl
@[simp] theorem applyReset_LEN (s : State) : (applyReset s).LEN = 0 := rfl
@[simp] theorem applyReset_BUSY (s : State) : (applyReset s).BUSY = false := rfl
@[simp] theorem applyReset_DONE (s : State) : (applyReset s).DONE = false := rfl
@[simp] theorem applyReset_MSG (s : State) : (applyReset s).MSG = s.MSG := rfl
@[simp] theorem applyReset_DIG (s : State) : (applyReset s).DIG = s.DIG := rfl
@[simp] theorem applyReset_msgBinding (s : State) : (applyReset s).msgBinding = s.msgBinding := rfl
@[simp] theorem applyReset_digBinding (s : State) : (applyReset s).digBinding = s.digBinding := rfl
@[simp] theorem applyReset_regBinding (s : State) : (applyReset s).regBinding = s.regBinding := rfl
@[simp] theorem applyReset_powerOn (s : State) : (applyReset s).powerOn = s.powerOn := rfl
@[simp] theorem applyReset_readData (s : State) : (applyReset s).readData = s.readData := rfl
@[simp] theorem applyReset_loadData (s : State) : (applyReset s).loadData = s.loadData := rfl
@[simp] theorem applyReset_turns (s : State) : (applyReset s).turns = s.turns := rfl
@[simp] theorem applyReset_digTaint (s : State) : (applyReset s).digTaint = s.digTaint := rfl
@[simp] theorem applyReset_draws (s : State) : (applyReset s).draws = s.draws + 1 := rfl

/-! `LD DIG[j]` changes only what the host received and the count of draws. -/

theorem hostLoadDig_eq (j : BitVec 5) (s : State) :
    hostLoadDig j s =
      { s with loadData := (hostLoadDig j s).loadData, draws := (hostLoadDig j s).draws } := by
  unfold hostLoadDig
  split <;> rfl

@[simp] theorem hostLoadDig_H (j : BitVec 5) (s : State) : (hostLoadDig j s).H = s.H := by
  rw [hostLoadDig_eq]
@[simp] theorem hostLoadDig_v (j : BitVec 5) (s : State) : (hostLoadDig j s).v = s.v := by
  rw [hostLoadDig_eq]
@[simp] theorem hostLoadDig_W (j : BitVec 5) (s : State) : (hostLoadDig j s).W = s.W := by
  rw [hostLoadDig_eq]
@[simp] theorem hostLoadDig_BLOCK (j : BitVec 5) (s : State) : (hostLoadDig j s).BLOCK = s.BLOCK := by
  rw [hostLoadDig_eq]
@[simp] theorem hostLoadDig_L (j : BitVec 5) (s : State) : (hostLoadDig j s).L = s.L := by
  rw [hostLoadDig_eq]
@[simp] theorem hostLoadDig_N (j : BitVec 5) (s : State) : (hostLoadDig j s).N = s.N := by
  rw [hostLoadDig_eq]
@[simp] theorem hostLoadDig_SEQ (j : BitVec 5) (s : State) : (hostLoadDig j s).SEQ = s.SEQ := by
  rw [hostLoadDig_eq]
@[simp] theorem hostLoadDig_LEN (j : BitVec 5) (s : State) : (hostLoadDig j s).LEN = s.LEN := by
  rw [hostLoadDig_eq]
@[simp] theorem hostLoadDig_BUSY (j : BitVec 5) (s : State) : (hostLoadDig j s).BUSY = s.BUSY := by
  rw [hostLoadDig_eq]
@[simp] theorem hostLoadDig_DONE (j : BitVec 5) (s : State) : (hostLoadDig j s).DONE = s.DONE := by
  rw [hostLoadDig_eq]
@[simp] theorem hostLoadDig_MSG (j : BitVec 5) (s : State) : (hostLoadDig j s).MSG = s.MSG := by
  rw [hostLoadDig_eq]
@[simp] theorem hostLoadDig_DIG (j : BitVec 5) (s : State) : (hostLoadDig j s).DIG = s.DIG := by
  rw [hostLoadDig_eq]
@[simp] theorem hostLoadDig_msgBinding (j : BitVec 5) (s : State) : (hostLoadDig j s).msgBinding = s.msgBinding := by
  rw [hostLoadDig_eq]
@[simp] theorem hostLoadDig_digBinding (j : BitVec 5) (s : State) : (hostLoadDig j s).digBinding = s.digBinding := by
  rw [hostLoadDig_eq]
@[simp] theorem hostLoadDig_regBinding (j : BitVec 5) (s : State) : (hostLoadDig j s).regBinding = s.regBinding := by
  rw [hostLoadDig_eq]
@[simp] theorem hostLoadDig_powerOn (j : BitVec 5) (s : State) : (hostLoadDig j s).powerOn = s.powerOn := by
  rw [hostLoadDig_eq]
@[simp] theorem hostLoadDig_readData (j : BitVec 5) (s : State) : (hostLoadDig j s).readData = s.readData := by
  rw [hostLoadDig_eq]
@[simp] theorem hostLoadDig_turns (j : BitVec 5) (s : State) : (hostLoadDig j s).turns = s.turns := by
  rw [hostLoadDig_eq]
@[simp] theorem hostLoadDig_digTaint (j : BitVec 5) (s : State) : (hostLoadDig j s).digTaint = s.digTaint := by
  rw [hostLoadDig_eq]

end Sys2Proof.Machine
end

