-- ==== Sys2Proof/Laws/Memory.lean ====
section
/-! SUPPORT. The laws of the byte spaces: read after write, and the canonical form. -/

namespace Sys2Proof.Machine

theorem lookup_write (m : Memory) (i : Nat) (b : Byte) (j : Nat) :
    Memory.lookup (Memory.write m i b) j = if i = j then some b else Memory.lookup m j := by
  induction m with
  | nil => simp [Memory.write, Memory.lookup]
  | cons p m ih =>
    obtain ⟨a, c⟩ := p
    unfold Memory.write
    split
    · simp [Memory.lookup]
    · split
      · next h => subst h; by_cases h : i = j <;> simp [Memory.lookup, h]
      · next h =>
        simp only [Memory.lookup, ih]
        by_cases h1 : a = j
        · have h2 : i ≠ j := fun e => h (e.trans h1.symm)
          simp [h1, h2]
        · simp [h1]

@[simp] theorem lookup_write_same (m : Memory) (i : Nat) (b : Byte) :
    Memory.lookup (Memory.write m i b) i = some b := by
  simp [lookup_write]

theorem lookup_write_other (m : Memory) {i j : Nat} (b : Byte) (h : i ≠ j) :
    Memory.lookup (Memory.write m i b) j = Memory.lookup m j := by
  simp [lookup_write, h]

theorem wfFrom_mono {size lo lo' : Nat} (h : lo' ≤ lo) :
    ∀ m : Memory, Memory.wfFrom size lo m = true → Memory.wfFrom size lo' m = true
  | [], _ => rfl
  | (a, c) :: m, hm => by
    simp only [Memory.wfFrom, Bool.and_eq_true, decide_eq_true_eq] at hm ⊢
    exact ⟨⟨by omega, hm.1.2⟩, hm.2⟩

theorem wfFrom_write {size : Nat} {i : Nat} (b : Byte) (hi : i < size) :
    ∀ (m : Memory) (lo : Nat), lo ≤ i → Memory.wfFrom size lo m = true →
      Memory.wfFrom size lo (Memory.write m i b) = true
  | [], lo, hlo, _ => by simp [Memory.write, Memory.wfFrom, hlo, hi]
  | (a, c) :: m, lo, hlo, hm => by
    simp only [Memory.wfFrom, Bool.and_eq_true, decide_eq_true_eq] at hm
    unfold Memory.write
    split
    · next h => simp [Memory.wfFrom, hlo, hi, hm, Nat.succ_le_of_lt h]
    · split
      · next h => subst h; simp [Memory.wfFrom, hlo, hi, hm]
      · next h1 h2 =>
        have := wfFrom_write b hi m (a + 1) (by omega) hm.2
        simp [Memory.wfFrom, hm, this]

/-- A write at an index of the space keeps the canonical form. -/
theorem wf_write {size i : Nat} (b : Byte) (m : Memory) (hi : i < size) (hm : Memory.wf size m = true) :
    Memory.wf size (Memory.write m i b) = true :=
  wfFrom_write b hi m 0 (Nat.zero_le i) hm

theorem wf_reset : memoryWf State.reset := by decide

end Sys2Proof.Machine
end

