-- ==== Sys2Proof/Laws/Ops.lean ====
section
/-! SUPPORT. What each shared operation and operand form does. -/

namespace Sys2Proof.Machine

/-! ## Arrays -/

@[simp] theorem sel64_upd64_same {α : Type} (x : Vector α 64) (t : BitVec 6) (y : α) :
    sel64 (upd64 x t y) t = y := by
  simp [sel64, upd64]

theorem sel64_upd64_other {α : Type} (x : Vector α 64) {t u : BitVec 6} (y : α) (h : t ≠ u) :
    sel64 (upd64 x t y) u = sel64 x u := by
  have : t.toNat ≠ u.toNat := fun e => h (BitVec.eq_of_toNat_eq e)
  simp only [sel64, upd64]
  rw [Vector.getElem_set_ne]
  exact this

theorem vector64_ext {α : Type} {x y : Vector α 64} (h : ∀ t : BitVec 6, sel64 x t = sel64 y t) : x = y := by
  apply Vector.ext
  intro i hi
  have := h (BitVec.ofNat 6 i)
  simpa [sel64, Nat.mod_eq_of_lt hi] using this

@[simp] theorem varsOfVector_varsToVector (v : Vars) : varsOfVector (varsToVector v) = v := rfl

/-! ## Operand forms (R96) -/

theorem blockIndex_toNat (t : BitVec 4) (k : BitVec 2) : (blockIndex t k).toNat = 4 * t.toNat + k.toNat := by
  unfold blockIndex
  rw [BitVec.toNat_append, ← Nat.shiftLeft_add_eq_or_of_lt k.isLt, Nat.shiftLeft_eq]
  omega

theorem digestIndex_toNat (i : BitVec 3) (k : BitVec 2) : (digestIndex i k).toNat = 4 * i.toNat + k.toNat := by
  unfold digestIndex
  rw [BitVec.toNat_append, ← Nat.shiftLeft_add_eq_or_of_lt k.isLt, Nat.shiftLeft_eq]
  omega

/-! ## Framing -/

theorem mem_readsOfBlock (len n i : Nat) :
    i ∈ readsOfBlock len n ↔ 64 * n ≤ i ∧ i < 64 * n + 64 ∧ i < len := by
  simp only [readsOfBlock, List.mem_filter, List.mem_map, List.mem_range, decide_eq_true_eq]
  constructor
  · rintro ⟨⟨j, hj, rfl⟩, h⟩; omega
  · rintro ⟨h1, h2, h3⟩; exact ⟨⟨i - 64 * n, by omega, by omega⟩, h3⟩

/-- The block count in the form of R153. -/
theorem blockCount_eq (len : Nat) : blockCount len = (len + 8) / 64 + 1 := by
  unfold blockCount paddedLength zeroCount
  omega

/-- The 27 bits of `N` never overflow on a block of the message (R29). -/
theorem counter_succ_toNat (s : State) (h : s.N.toNat < blockCount s.L.toNat) :
    (s.N + 1).toNat = s.N.toNat + 1 := by
  rw [blockCount_eq] at h
  have := s.L.isLt
  rw [BitVec.toNat_add]
  simp
  omega

theorem frameAdmitted_iff (s : State) : frameAdmitted s = true ↔ readsAdmitted s := by
  simp only [frameAdmitted, List.all_eq_true]

theorem sel64_paddedBlock (len : Word) (msg : Nat → Byte) (n : Nat) (j : BitVec 6) :
    sel64 (paddedBlock len msg n) j = paddedByte len msg (64 * n + j.toNat) := by
  simp [sel64, paddedBlock]

/-- The padded stream depends on the message below its length only. -/
theorem paddedByte_congr {len : Word} {m m' : Nat → Byte} (h : ∀ i, i < len.toNat → m i = m' i) (i : Nat) :
    paddedByte len m i = paddedByte len m' i := by
  unfold paddedByte
  split
  · next hi => exact h i hi
  · rfl

theorem paddedBlock_congr {len : Word} {m m' : Nat → Byte} (h : ∀ i, i < len.toNat → m i = m' i) :
    paddedBlock len m = paddedBlock len m' := by
  funext n
  simp only [paddedBlock, paddedByte_congr h]

theorem hashAfter_congr {len : Word} {m m' : Nat → Byte} (h : ∀ i, i < len.toNat → m i = m' i) :
    hashAfter len m = hashAfter len m' := by
  funext n
  induction n with
  | zero => rfl
  | succ n ih => simp only [hashAfter, ih, paddedBlock_congr h]

theorem message_congr {s t : State} (hP : t.powerOn = s.powerOn) (hM : t.MSG = s.MSG) : message t = message s := by
  unfold message
  rw [hP, hM]

/-- The current block is a matter of `L`, the message space and `N` alone. -/
theorem currentBlock_congr {s t : State} (hL : t.L = s.L) (hP : t.powerOn = s.powerOn) (hM : t.MSG = s.MSG)
    (hN : t.N = s.N) : currentBlock t = currentBlock s := by
  unfold currentBlock
  rw [hL, message_congr hP hM, hN]

/-! ## The serializer -/

/-- What SERW's four writes leave at each digest index (R232). -/
theorem lookup_serializeWord (i : BitVec 3) (s : State) (j : Nat) :
    Memory.lookup (serializeWord i s).DIG j =
      if j = 4 * i.toNat then some (byteOf (sel8 s.H i) 0)
      else if j = 4 * i.toNat + 1 then some (byteOf (sel8 s.H i) 1)
      else if j = 4 * i.toNat + 2 then some (byteOf (sel8 s.H i) 2)
      else if j = 4 * i.toNat + 3 then some (byteOf (sel8 s.H i) 3)
      else Memory.lookup s.DIG j := by
  simp only [serializeWord, memWriteDig_DIG, lookup_write, digestIndex_toNat]
  simp only [show (0 : BitVec 2).toNat = 0 from rfl, show (1 : BitVec 2).toNat = 1 from rfl,
    show (2 : BitVec 2).toNat = 2 from rfl, show (3 : BitVec 2).toNat = 3 from rfl]
  split_ifs <;> first | rfl | omega

/-! ## Bindings -/

/-- Which indices stand at an address. -/
theorem mem_indicesAt (b : Binding) (a i : Nat) : i ∈ Binding.indicesAt b a ↔ Binding.address b i = some a := by
  simp only [Binding.indicesAt, List.mem_filter, List.mem_map, decide_eq_true_eq, and_iff_right_iff_imp]
  intro h
  simp only [Binding.address, Option.map_eq_some_iff] at h
  obtain ⟨w, hw, ha⟩ := h
  have hf := List.find?_some hw
  simp only [Bool.and_eq_true, decide_eq_true_eq] at hf
  exact ⟨w, List.mem_of_find?_eq_some hw, by omega⟩

theorem sharesByte_iff (s : State) (i j : Nat) :
    sharesByte s i j = true ↔
      ∃ a, Binding.address s.msgBinding i = some a ∧ Binding.address s.digBinding j = some a := by
  unfold sharesByte
  split
  · next a h => simp [h]
  · next h => simp [h]

/-- R302: the launch overlaps exactly when some digest byte is a message byte below `LEN`. -/
theorem launchOverlaps_iff (s : State) :
    launchOverlaps s = true ↔ ∃ i j, i < s.LEN.toNat ∧ j < 32 ∧ sharesByte s i j = true := by
  simp only [launchOverlaps, List.any_eq_true, List.mem_range]
  constructor
  · rintro ⟨j, hj, h⟩
    split at h
    · next a ha =>
      simp only [List.any_eq_true, mem_indicesAt, decide_eq_true_eq] at h
      obtain ⟨i, hi, hL⟩ := h
      exact ⟨i, j, hL, hj, (sharesByte_iff s i j).mpr ⟨a, hi, ha⟩⟩
    · cases h
  · rintro ⟨i, j, hL, hj, h⟩
    obtain ⟨a, hi, ha⟩ := (sharesByte_iff s i j).mp h
    refine ⟨j, hj, ?_⟩
    simp only [ha, List.any_eq_true, mem_indicesAt, decide_eq_true_eq]
    exact ⟨i, hi, hL⟩

/-- R64, R67: the register at an address is the least one that REG_BINDING puts there. -/
theorem register_eq_some {b : RegBinding} {a : Nat} {reg : BitVec 4} (h : b.base + b.stride * reg.toNat = a)
    (hmin : ∀ r, r < reg.toNat → b.base + b.stride * r ≠ a) : RegBinding.register b a = some reg := by
  unfold RegBinding.register
  rw [List.find?_map, Option.map_eq_some_iff]
  refine ⟨reg.toNat, ?_, by simp⟩
  rw [List.find?_range_eq_some]
  have := reg.isLt
  refine ⟨by simpa using h, by simpa using this, fun r hr => ?_⟩
  have e : r % 16 = r := Nat.mod_eq_of_lt (by omega)
  simpa [e] using hmin r hr

theorem register_eq_none {b : RegBinding} {a : Nat} (h : ∀ r, r < 16 → b.base + b.stride * r ≠ a) :
    RegBinding.register b a = none := by
  unfold RegBinding.register
  simp only [List.find?_eq_none, List.mem_map, List.mem_range, decide_eq_true_eq]
  rintro _ ⟨r, hr, rfl⟩
  have e : r % 16 = r := Nat.mod_eq_of_lt hr
  simpa [e] using h r hr

theorem digWritable_iff (s : State) : digWritable s = true ↔ ∀ j, j < 32 → Binding.permits s.digBinding j = true := by
  simp [digWritable]

/-- R61: whether a message read is admitted is a matter of the binding alone. -/
@[simp] theorem isSome_memReadMsg (s : State) (i : Nat) :
    (memReadMsg s i).isSome = Binding.permits s.msgBinding i := by
  unfold memReadMsg
  split <;> simp_all

/-- A read that is admitted gives the message byte. -/
theorem memReadMsg_eq_some {s : State} {i : Nat} (h : Binding.permits s.msgBinding i = true) :
    memReadMsg s i = some (messageOf s.powerOn s.MSG i) := by
  simp [memReadMsg, h]

/-! ## The host's stores -/

/-- What stores of one byte at several digest indices leave at each index. -/
theorem lookup_storeDigAll (js : List (BitVec 5)) (b : Byte) (s : State) (k : Nat) :
    Memory.lookup (storeDigAll js b s).DIG k = if ∃ j ∈ js, j.toNat = k then some b else Memory.lookup s.DIG k := by
  induction js generalizing s with
  | nil => simp [storeDigAll]
  | cons j js ih =>
    show Memory.lookup (storeDigAll js b (hostStoreDig j b s)).DIG k = _
    rw [ih, hostStoreDig_DIG, lookup_write]
    by_cases h1 : ∃ j' ∈ js, j'.toNat = k
    · have h2 : ∃ j' ∈ j :: js, j'.toNat = k := h1.imp fun _ h => ⟨List.mem_cons_of_mem _ h.1, h.2⟩
      rw [if_pos h1, if_pos h2]
    · by_cases h2 : j.toNat = k <;> simp_all

theorem getLsbD_hostStoreDig (j : BitVec 5) (b : Byte) (s : State) (k : Nat) :
    (hostStoreDig j b s).digTaint.getLsbD k = if j.toNat = k then s.BUSY else s.digTaint.getLsbD k := by
  have h32 : j.toNat < 32 := j.isLt
  unfold hostStoreDig
  by_cases hB : s.BUSY = true <;> by_cases hk : j.toNat = k
  · subst hk; simp [hB, h32]
  · simp [hB, hk, BitVec.getLsbD_twoPow]
  · subst hk; simp [hB, h32]
  · by_cases h : k < 32
    · simp [hB, hk, h, Ne.symm hk]
    · simp [hB, hk, BitVec.getLsbD_of_ge _ _ (Nat.le_of_not_lt h)]

/-- What they leave of the marks: set while the core is busy, cleared otherwise. -/
theorem getLsbD_storeDigAll (js : List (BitVec 5)) (b : Byte) (s : State) (k : Nat) :
    (storeDigAll js b s).digTaint.getLsbD k = if ∃ j ∈ js, j.toNat = k then s.BUSY else s.digTaint.getLsbD k := by
  induction js generalizing s with
  | nil => simp [storeDigAll]
  | cons j js ih =>
    show (storeDigAll js b (hostStoreDig j b s)).digTaint.getLsbD k = _
    rw [ih, hostStoreDig_BUSY, getLsbD_hostStoreDig]
    by_cases h1 : ∃ j' ∈ js, j'.toNat = k
    · have h2 : ∃ j' ∈ j :: js, j'.toNat = k := h1.imp fun _ h => ⟨List.mem_cons_of_mem _ h.1, h.2⟩
      rw [if_pos h1, if_pos h2]
    · by_cases h2 : j.toNat = k <;> simp_all

theorem mem_sharedWith (s : State) (i k : Nat) :
    (∃ j ∈ sharedWith s i, j.toNat = k) ↔ k < 32 ∧ sharesByte s i k = true := by
  simp only [sharedWith, List.mem_filter, List.mem_map, List.mem_range]
  constructor
  · rintro ⟨j, ⟨-, h⟩, rfl⟩; exact ⟨j.isLt, h⟩
  · rintro ⟨hk, h⟩
    have e : (BitVec.ofNat 5 k).toNat = k := by simp; omega
    exact ⟨BitVec.ofNat 5 k, ⟨⟨k, hk, rfl⟩, by rw [e]; exact h⟩, e⟩

/-- The digest space after `ST MSG[i], b`: the shared bytes hold `b` too. -/
theorem lookup_hostStoreMsg (i : BitVec 32) (b : Byte) (s : State) (k : Nat) :
    Memory.lookup (hostStoreMsg i b s).DIG k =
      if k < 32 ∧ sharesByte s i.toNat k = true then some b else Memory.lookup s.DIG k := by
  unfold hostStoreMsg
  rw [lookup_storeDigAll]
  exact if_congr (mem_sharedWith s i.toNat k) rfl rfl

/-- The marks after `ST MSG[i], b`: a breach of R301 sets all, a store to a shared byte is a digest store too. -/
theorem getLsbD_hostStoreMsg (i : BitVec 32) (b : Byte) (s : State) {k : Nat} (hk : k < 32) :
    (hostStoreMsg i b s).digTaint.getLsbD k =
      if sharesByte s i.toNat k = true then s.BUSY
      else (s.BUSY && decide (i.toNat < s.L.toNat)) || s.digTaint.getLsbD k := by
  unfold hostStoreMsg
  rw [getLsbD_storeDigAll]
  simp only [mem_sharedWith, hk, true_and]
  split
  · rfl
  · split
    · next h => rw [h, BitVec.getLsbD_allOnes, decide_eq_true hk, Bool.true_or]
    · next h => rw [Bool.eq_false_iff.mpr h, Bool.false_or]

/-- Stores keep the digest space in canonical form. -/
theorem wf_storeDigAll (js : List (BitVec 5)) (b : Byte) (s : State) (h : Memory.wf 32 s.DIG = true) :
    Memory.wf 32 (storeDigAll js b s).DIG = true := by
  induction js generalizing s with
  | nil => exact h
  | cons j js ih => exact ih _ (wf_write b s.DIG j.isLt h)

theorem wf_hostStoreMsg (i : BitVec 32) (b : Byte) (s : State) (h : Memory.wf 32 s.DIG = true) :
    Memory.wf 32 (hostStoreMsg i b s).DIG = true :=
  wf_storeDigAll _ b _ h

/-! ## The schedule below its length -/

theorem sel64_schedulePrefix_of_lt (block : Vector Byte 64) {t : BitVec 6} {n : Nat} (h : t.toNat < n) (hn : n ≤ 64) :
    sel64 (schedulePrefix block n) t = sel64 (schedulePrefix block (t.toNat + 1)) t := by
  induction n with
  | zero => omega
  | succ n ih =>
    rcases Nat.lt_succ_iff_lt_or_eq.mp h with h' | h'
    · rw [← ih h' (by omega)]
      apply sel64_upd64_other
      intro e
      have : (BitVec.ofNat 6 n).toNat = t.toNat := by rw [e]
      simp [Nat.mod_eq_of_lt (show n < 64 by omega)] at this
      omega
    · rw [h']

/-- Entry `t` of a block's schedule is formed from the entries before it (R183). -/
theorem sel64_schedule (block : Vector Byte 64) (t : BitVec 6) :
    sel64 (schedule block) t = scheduleEntry block (schedulePrefix block t.toNat) t.toNat := by
  unfold schedule
  rw [sel64_schedulePrefix_of_lt block t.isLt (le_refl 64)]
  conv_lhs => unfold schedulePrefix
  have : BitVec.ofNat 6 t.toNat = t := by simp
  rw [this, sel64_upd64_same]

end Sys2Proof.Machine
end

