-- ==== Sys2Proof/Laws/Step.lean ====
section
/-! SUPPORT. Inversion: what each meaning, and one step, can answer. -/

namespace Sys2Proof.Machine

variable {s t : State}

/-! ## The fields of a host word (R94) -/

theorem hostWord_getLsbD (wr : Bool) (reg : BitVec 4) (data : Word) (i : Nat) :
    (hostWord wr reg data).getLsbD i =
      if i < 32 then data.getLsbD i
      else if i < 36 then reg.getLsbD (i - 32)
      else (BitVec.ofBool wr).getLsbD (i - 36) := by
  unfold hostWord
  rw [BitVec.getLsbD_append]
  split
  · rfl
  · rw [BitVec.getLsbD_append]
    by_cases h : i < 36
    · simp [h, show i - 32 < 4 by omega]
    · simp [h, show ¬ i - 32 < 4 by omega, Nat.sub_sub]

@[simp] theorem hostWord_wr (wr : Bool) (reg : BitVec 4) (data : Word) :
    (hostWord wr reg data).getLsbD 36 = wr := by
  rw [hostWord_getLsbD]; simp

@[simp] theorem hostWord_reg (wr : Bool) (reg : BitVec 4) (data : Word) :
    (hostWord wr reg data).extractLsb' 32 4 = reg := by
  apply BitVec.eq_of_getLsbD_eq
  intro i hi
  rw [BitVec.getLsbD_extractLsb', hostWord_getLsbD]
  simp [hi, show 32 + i < 36 by omega]

@[simp] theorem hostWord_data (wr : Bool) (reg : BitVec 4) (data : Word) :
    (hostWord wr reg data).extractLsb' 0 32 = data := by
  apply BitVec.eq_of_getLsbD_eq
  intro i hi
  rw [BitVec.getLsbD_extractLsb', hostWord_getLsbD]
  simp [hi]

/-! ## The positions -/

@[simp] theorem ofWord_word (q : Seq) : Seq.ofWord q.word = q := by
  obtain ⟨u, x⟩ := q
  simp only [Seq.ofWord, Seq.word, Seq.mk.injEq]
  constructor <;>
    (apply BitVec.eq_of_getLsbD_eq; intro i hi; rw [BitVec.getLsbD_extractLsb', BitVec.getLsbD_append]; simp [hi])

/-- The positions that decode, with what they decode to (R92, R93). -/
theorem decodeSeq_ok {q : Seq} {i : Instr} (h : decodeSeq q = .ok i) :
    (q = ⟨0, 0⟩ ∧ i = .idle) ∨ (q = ⟨1, 0⟩ ∧ i = .seed) ∨ (q = ⟨2, 0⟩ ∧ i = .frame) ∨
      (∃ t : BitVec 4, q = ⟨3, t.setWidth 6⟩ ∧ i = .loadw t) ∨
      (∃ t : BitVec 6, 16 ≤ t.toNat ∧ q = ⟨4, t⟩ ∧ i = .expw t) ∨ (q = ⟨5, 0⟩ ∧ i = .initv) ∨
      (∃ t : BitVec 6, q = ⟨6, t⟩ ∧ i = .round t) ∨ (q = ⟨7, 0⟩ ∧ i = .fold) ∨
      (∃ t : BitVec 3, q = ⟨8, t.setWidth 6⟩ ∧ i = .serw t) ∨ (q = ⟨9, 0⟩ ∧ i = .finish) := by
  obtain ⟨u, x⟩ := q
  have hu : ∀ n, u.toNat = n → u = BitVec.ofNat 4 n := by intro n h; simp [← h]
  have hx : x.toNat = 0 → x = 0 := fun h => BitVec.eq_of_toNat_eq h
  have h4 : x.toNat < 16 → x = (x.setWidth 4).setWidth 6 := by clear h hx hu; revert x; decide
  have h3 : x.toNat < 8 → x = (x.setWidth 3).setWidth 6 := by clear h hx hu h4; revert x; decide
  unfold decodeSeq checkIdx at h
  split at h <;> (try (split at h <;> simp at h)) <;> (try (simp at h))
  all_goals (try subst h)
  case h_1.isTrue a b => clear h3 h4; simp_all [hu _ a]
  case h_2.isTrue a b => clear h3 h4; simp_all [hu _ a]
  case h_3.isTrue a b => clear h3 h4; simp_all [hu _ a]
  case h_4.isTrue a b => simp [hu _ a]; exact h4 (by simpa using b)
  case h_5.isTrue a b => simp [hu _ a]; simpa using b
  case h_6.isTrue a b => clear h3 h4; simp_all [hu _ a]
  case h_7 a => simp [hu _ a]
  case h_8.isTrue a b => clear h3 h4; simp_all [hu _ a]
  case h_9.isTrue a b => simp [hu _ a]; exact h3 (by simpa using b)
  case h_10.isTrue a b => clear h3 h4; simp_all [hu _ a]

theorem loadwNext_eq (k : BitVec 4) :
    (if k.toNat < 15 then seqLoadw (k + 1) else seqExpw 16) =
      if k = 15 then ⟨4, 16⟩ else ⟨3, BitVec.ofNat 6 (k.toNat + 1)⟩ := by
  revert k; decide

theorem expwNext_eq (k : BitVec 6) :
    (if k.toNat < 63 then seqExpw (k + 1) else seqInitv) =
      if k = 63 then ⟨5, 0⟩ else ⟨4, BitVec.ofNat 6 (k.toNat + 1)⟩ := by
  revert k; decide

theorem roundNext_eq (k : BitVec 6) :
    (if k.toNat < 63 then seqRound (k + 1) else seqFold) =
      if k = 63 then ⟨7, 0⟩ else ⟨6, BitVec.ofNat 6 (k.toNat + 1)⟩ := by
  revert k; decide

theorem serwNext_eq (k : BitVec 3) :
    (if k.toNat < 7 then seqSerw (k + 1) else seqFinish) =
      if k = 7 then ⟨9, 0⟩ else ⟨8, BitVec.ofNat 6 (k.toNat + 1)⟩ := by
  revert k; decide

/-! ## The meanings -/

theorem execFrame_next (h : execFrame s = .next t) :
    s.N.toNat < blockCount s.L.toNat ∧ readsAdmitted s ∧
      t = setSEQ (seqLoadw 0) { s with BLOCK := framedBlock s } := by
  unfold execFrame at h
  split at h
  · cases h
  · split at h
    · next h1 h2 => cases h; exact ⟨by omega, (frameAdmitted_iff s).mp h2, rfl⟩
    · cases h

theorem execExpw_next {i : BitVec 6} (h : execExpw i s = .next t) :
    16 ≤ i.toNat ∧
      t = setSEQ (if i.toNat < 63 then seqExpw (i + 1) else seqInitv)
        { s with W := upd64 s.W i (expandWord s.W i) } := by
  unfold execExpw at h
  split at h
  · cases h
  · cases h; exact ⟨by omega, rfl⟩

theorem execFold_next (h : execFold s = .next t) :
    s.N.toNat < blockCount s.L.toNat ∧
      t = setSEQ (if s.N.toNat + 1 < blockCount s.L.toNat then seqFrame else seqSerw 0)
        { s with H := foldHash s.H s.v, N := s.N + 1 } := by
  unfold execFold at h
  split at h
  · cases h
  · cases h; exact ⟨by omega, rfl⟩

theorem execWrctrl_next {d : Word} (h : execWrctrl d s = .next t) :
    (startBit d = true ∧ s.BUSY = false ∧ launchAllowed s ∧ t = acceptStart s) ∨
      ((startBit d = false ∨ s.BUSY = true) ∧ t = s) := by
  unfold execWrctrl at h
  split at h
  · next h1 =>
    simp only [Bool.and_eq_true, Bool.not_eq_true'] at h1
    split at h
    · cases h
    · split at h
      · cases h
      · next h2 h3 =>
        cases h
        exact .inl ⟨h1.1, h1.2, ⟨by simpa using h2, by simpa using h3⟩, rfl⟩
  · next h1 =>
    cases h
    refine .inr ⟨?_, rfl⟩
    simp only [Bool.and_eq_true, Bool.not_eq_true', not_and] at h1
    cases hb : startBit d
    · exact .inl rfl
    · exact .inr (by simpa using h1 hb)

theorem coreStep_next (h : coreStep s = .next t) : ∃ i, decodeSeq s.SEQ = .ok i ∧ exec i s = .next t := by
  unfold coreStep currentOperation at h
  split at h
  · next i hi => exact ⟨i, hi, h⟩
  · cases h

/-- Everything a turn of the core can do, position by position. -/
theorem coreTurn_cases {i : Instr} (hd : decodeSeq s.SEQ = .ok i) (h : exec i s = .next t) :
    (s.SEQ = ⟨0, 0⟩ ∧ t = s) ∨
      (s.SEQ = ⟨1, 0⟩ ∧ t = { s with H := IV, N := 0, SEQ := ⟨2, 0⟩ }) ∨
      (s.SEQ = ⟨2, 0⟩ ∧ s.N.toNat < blockCount s.L.toNat ∧ readsAdmitted s ∧
        t = { s with BLOCK := framedBlock s, SEQ := ⟨3, 0⟩ }) ∨
      (∃ k : BitVec 4, s.SEQ = ⟨3, k.setWidth 6⟩ ∧
        t = { s with
          W := upd64 s.W (k.setWidth 6) (loadWord s.BLOCK k)
          SEQ := if k = 15 then ⟨4, 16⟩ else ⟨3, BitVec.ofNat 6 (k.toNat + 1)⟩ }) ∨
      (∃ k : BitVec 6, 16 ≤ k.toNat ∧ s.SEQ = ⟨4, k⟩ ∧
        t = { s with
          W := upd64 s.W k (expandWord s.W k)
          SEQ := if k = 63 then ⟨5, 0⟩ else ⟨4, BitVec.ofNat 6 (k.toNat + 1)⟩ }) ∨
      (s.SEQ = ⟨5, 0⟩ ∧ t = { s with v := varsOfVector s.H, SEQ := ⟨6, 0⟩ }) ∨
      (∃ k : BitVec 6, s.SEQ = ⟨6, k⟩ ∧
        t = { s with
          v := rnd s.v (sel64 K k) (sel64 s.W k)
          SEQ := if k = 63 then ⟨7, 0⟩ else ⟨6, BitVec.ofNat 6 (k.toNat + 1)⟩ }) ∨
      (s.SEQ = ⟨7, 0⟩ ∧ s.N.toNat < blockCount s.L.toNat ∧
        t = { s with
          H := foldHash s.H s.v
          N := s.N + 1
          SEQ := if s.N.toNat + 1 < blockCount s.L.toNat then ⟨2, 0⟩ else ⟨8, 0⟩ }) ∨
      (∃ k : BitVec 3, s.SEQ = ⟨8, k.setWidth 6⟩ ∧
        t = { s with
          DIG := (serializeWord k s).DIG
          SEQ := if k = 7 then ⟨9, 0⟩ else ⟨8, BitVec.ofNat 6 (k.toNat + 1)⟩ }) ∨
      (s.SEQ = ⟨9, 0⟩ ∧ t = { s with BUSY := false, DONE := true, SEQ := ⟨0, 0⟩ }) := by
  rcases decodeSeq_ok hd with ⟨hq, rfl⟩ | ⟨hq, rfl⟩ | ⟨hq, rfl⟩ | ⟨k, hq, rfl⟩ | ⟨k, hk, hq, rfl⟩ | ⟨hq, rfl⟩ |
    ⟨k, hq, rfl⟩ | ⟨hq, rfl⟩ | ⟨k, hq, rfl⟩ | ⟨hq, rfl⟩
  · cases h; exact .inl ⟨hq, rfl⟩
  · cases h; exact .inr (.inl ⟨hq, rfl⟩)
  · exact .inr (.inr (.inl ⟨hq, execFrame_next h⟩))
  · simp only [exec, execLoadw, Host.Outcome.next.injEq, loadwNext_eq] at h
    exact .inr (.inr (.inr (.inl ⟨k, hq, h.symm⟩)))
  · have h2 := (execExpw_next h).2
    rw [expwNext_eq] at h2
    exact .inr (.inr (.inr (.inr (.inl ⟨k, hk, hq, h2⟩))))
  · cases h; exact .inr (.inr (.inr (.inr (.inr (.inl ⟨hq, rfl⟩)))))
  · simp only [exec, execRound, Host.Outcome.next.injEq, roundNext_eq] at h
    exact .inr (.inr (.inr (.inr (.inr (.inr (.inl ⟨k, hq, h.symm⟩))))))
  · exact .inr (.inr (.inr (.inr (.inr (.inr (.inr (.inl ⟨hq, execFold_next h⟩)))))))
  · simp only [exec, execSerw, Host.Outcome.next.injEq, serwNext_eq] at h
    exact .inr (.inr (.inr (.inr (.inr (.inr (.inr (.inr (.inl ⟨k, hq, h.symm⟩))))))))
  · cases h; exact .inr (.inr (.inr (.inr (.inr (.inr (.inr (.inr (.inr ⟨hq, rfl⟩))))))))

/-- Everything a register access can do: accept a START, or change LEN and what the host got back. -/
theorem hostAccess_cases {i : Instr} (hi : isHostAccess i = true) (h : exec i s = .next t) :
    (s.BUSY = false ∧ launchAllowed s ∧
        t = { s with L := s.LEN, BUSY := true, DONE := false, SEQ := ⟨1, 0⟩, digTaint := 0 }) ∨
      ∃ x y, t = { s with LEN := x, readData := y } := by
  cases i <;> simp only [isHostAccess, Bool.false_eq_true] at hi
  case wrctrl d =>
    rcases execWrctrl_next h with ⟨_, h1, h2, h3⟩ | ⟨_, h3⟩
    · exact .inl ⟨h1, h2, h3⟩
    · exact .inr ⟨_, _, h3⟩
  all_goals (cases h; exact .inr ⟨_, _, rfl⟩)

theorem isHostAccess_decodeHost (w : BitVec 37) : isHostAccess (decodeHost w) = true := by
  unfold decodeHost
  simp only
  split <;> rfl

/-- One list of operations after another. -/
theorem execList_append (a b : List Instr) (s : State) :
    execList (a ++ b) s =
      match execList a s with
      | .next t => execList b t
      | .fault r => .fault r
      | .refused r => .refused r := by
  induction a generalizing s with
  | nil => rfl
  | cons i a ih =>
    simp only [List.cons_append, execList]
    cases exec i s with
    | next t => exact ih t
    | fault r => rfl
    | refused r => rfl

/-- What a bus turn's register access is, and when there is one. -/
theorem busAccess_eq_some {b : RegBinding} {wr : Bool} {bus a : Nat} {accesses : List (List Byte)} {w : BitVec 37} :
    busAccess b wr bus a accesses = some w ↔
      bus = b.bus ∧ RegBinding.exchangesWhole b accesses = true ∧
        ∃ reg x, RegBinding.register b a = some reg ∧ RegBinding.wordOf b accesses = some x ∧ w = hostWord wr reg x := by
  unfold busAccess
  split
  · next h =>
    simp only [Bool.and_eq_true, decide_eq_true_eq] at h
    cases RegBinding.register b a <;> cases RegBinding.wordOf b accesses <;> simp [h, eq_comm]
  · next h =>
    simp only [Bool.and_eq_true, decide_eq_true_eq] at h
    constructor
    · intro e; cases e
    · rintro ⟨h1, h2, -⟩; exact absurd ⟨h1, h2⟩ h

/-- When accesses exchange a register whole. -/
theorem exchangesWhole_iff (b : RegBinding) (accesses : List (List Byte)) :
    RegBinding.exchangesWhole b accesses = true ↔
      (∀ bytes ∈ accesses, bytes.length = b.width) ∧ 4 ≤ accesses.length * b.width ∧
        (accesses.length - 1) * b.width < 4 := by
  simp [RegBinding.exchangesWhole, and_assoc]

/-- Everything a step can do: a core turn, a register access by number or over the bus, or one of the outside's other
moves. -/
theorem step_next (h : step s = .next t) :
    (∃ rest i, (s.turns = [] ∧ rest = [] ∨ s.turns = .core :: rest) ∧ decodeSeq s.SEQ = .ok i ∧
        exec i { s with turns := rest } = .next t) ∨
      (∃ i turn rest, s.turns = turn :: rest ∧ isHostAccess i = true ∧ exec i { s with turns := rest } = .next t) ∨
      (∃ turn rest, s.turns = turn :: rest ∧ t = { s with turns := rest }) ∨
      (∃ i b rest, s.turns = .storeMsg i b :: rest ∧ t = hostStoreMsg i b { s with turns := rest }) ∨
      (∃ j rest, s.turns = .loadDig j :: rest ∧ t = hostLoadDig j { s with turns := rest }) ∨
      (∃ j b rest, s.turns = .storeDig j b :: rest ∧ t = hostStoreDig j b { s with turns := rest }) ∨
      (∃ rest, s.turns = .reset :: rest ∧ t = applyReset { s with turns := rest }) := by
  unfold step at h
  split at h
  · next hs =>
    obtain ⟨i, hi, he⟩ := coreStep_next h
    exact .inl ⟨[], i, .inl ⟨hs, rfl⟩, hi, by rw [← hs]; exact he⟩
  · next rest hs =>
    obtain ⟨i, hi, he⟩ := coreStep_next h
    exact .inl ⟨rest, i, .inr hs, hi, he⟩
  · next w rest hs => exact .inr (.inl ⟨_, _, rest, hs, isHostAccess_decodeHost w, h⟩)
  · next wr bus a accesses rest hs =>
    split at h
    · next w _ => exact .inr (.inl ⟨_, _, rest, hs, isHostAccess_decodeHost w, h⟩)
    · cases h; exact .inr (.inr (.inl ⟨_, rest, hs, rfl⟩))
  · next i b rest hs => cases h; exact .inr (.inr (.inr (.inl ⟨i, b, rest, hs, rfl⟩)))
  · next j rest hs => cases h; exact .inr (.inr (.inr (.inr (.inl ⟨j, rest, hs, rfl⟩))))
  · next j b rest hs => cases h; exact .inr (.inr (.inr (.inr (.inr (.inl ⟨j, b, rest, hs, rfl⟩)))))
  · next rest hs => cases h; exact .inr (.inr (.inr (.inr (.inr (.inr ⟨rest, hs, rfl⟩)))))

end Sys2Proof.Machine
end

