-- ==== Sys2Proof/Laws/PerInstr.lean ====
section
/-! SUPPORT. A statement made per instruction: the encoding lies in its row of spec/opcode_table.json, that is, the row's
mask and match select it (R98). -/

namespace Sys2Proof.Laws.TableRow

/-- The row's mask and match, letter for letter from spec/opcode_table.json. -/
def maskMatch : Instr → Nat × Nat
  | .idle => (0x3FF, 0x000)
  | .seed => (0x3FF, 0x040)
  | .frame => (0x3FF, 0x080)
  | .loadw _ => (0x3F0, 0x0C0)
  | .expw _ => (0x3C0, 0x100)
  | .initv => (0x3FF, 0x140)
  | .round _ => (0x3C0, 0x180)
  | .fold => (0x3FF, 0x1C0)
  | .serw _ => (0x3F8, 0x200)
  | .finish => (0x3FF, 0x240)
  | .wrctrl _ => (0x1F00000000, 0x1000000000)
  | .rdctrl _ => (0x1F00000000, 0x0000000000)
  | .rdstatus _ => (0x1F00000000, 0x0100000000)
  | .wrstatus _ => (0x1F00000000, 0x1100000000)
  | .wrlen _ => (0x1F00000000, 0x1200000000)
  | .rdlen _ => (0x1F00000000, 0x0200000000)
  | .rdrsvd _ _ => (0x1000000000, 0x0000000000)
  | .wrrsvd _ _ => (0x1000000000, 0x1000000000)

/-- `word AND mask = match`, in the width of the word's format. -/
def selects (mm : Nat × Nat) : Code → Prop
  | .u w => w &&& BitVec.ofNat 10 mm.1 = BitVec.ofNat 10 mm.2
  | .h w => w &&& BitVec.ofNat 37 mm.1 = BitVec.ofNat 37 mm.2

/-- The instruction's encoding is selected by its row of the table. -/
def Statement (i : Instr) : Prop := selects (maskMatch i) (encode i)

/-- A host word under the mask of `WR` and `REG` keeps exactly those fields. -/
theorem hostWord_masked (wr : Bool) (reg : BitVec 4) (d : Word) :
    hostWord wr reg d &&& 0x1F00000000#37 = hostWord wr reg 0 := by
  apply BitVec.eq_of_getLsbD_eq
  intro i hi
  simp only [hostWord, BitVec.getLsbD_and, BitVec.getLsbD_append]
  by_cases h : i < 32
  · have : BitVec.getLsbD 0x1F00000000#37 i = false := by
      revert i; decide
    simp [h, this]
  · have : BitVec.getLsbD 0x1F00000000#37 i = true := by
      revert i; decide
    simp [h, this]

/-- A host word under the mask of `WR` alone keeps that bit. -/
theorem hostWord_masked_wr (wr : Bool) (reg : BitVec 4) (d : Word) :
    hostWord wr reg d &&& 0x1000000000#37 = hostWord wr 0 0 := by
  apply BitVec.eq_of_getLsbD_eq
  intro i hi
  simp only [hostWord, BitVec.getLsbD_and, BitVec.getLsbD_append]
  by_cases h : i = 36
  · subst h; simp
  · have : BitVec.getLsbD 0x1000000000#37 i = false := by
      revert i; decide
    rw [this]
    by_cases h1 : i < 32
    · simp [h1]
    · have h2 : i - 32 < 4 := by omega
      simp [h1, h2]

theorem idle : Statement .idle := by show _ = _; decide
theorem seed : Statement .seed := by show _ = _; decide
theorem frame : Statement .frame := by show _ = _; decide
theorem loadw (t : BitVec 4) : Statement (.loadw t) :=
  (by decide : ∀ t : BitVec 4, (seqLoadw t).word &&& 0x3F0#10 = 0x0C0#10) t
theorem expw (t : BitVec 6) : Statement (.expw t) :=
  (by decide : ∀ t : BitVec 6, (seqExpw t).word &&& 0x3C0#10 = 0x100#10) t
theorem initv : Statement .initv := by show _ = _; decide
theorem round (t : BitVec 6) : Statement (.round t) :=
  (by decide : ∀ t : BitVec 6, (seqRound t).word &&& 0x3C0#10 = 0x180#10) t
theorem fold : Statement .fold := by show _ = _; decide
theorem serw (i : BitVec 3) : Statement (.serw i) :=
  (by decide : ∀ i : BitVec 3, (seqSerw i).word &&& 0x3F8#10 = 0x200#10) i
theorem finish : Statement .finish := by show _ = _; decide
theorem wrctrl (d : Word) : Statement (.wrctrl d) := (hostWord_masked true 0 d).trans
    (by decide : hostWord true 0 0 = 0x1000000000#37)
theorem rdctrl (d : Word) : Statement (.rdctrl d) := (hostWord_masked false 0 d).trans
    (by decide : hostWord false 0 0 = 0x0000000000#37)
theorem rdstatus (d : Word) : Statement (.rdstatus d) := (hostWord_masked false 1 d).trans
    (by decide : hostWord false 1 0 = 0x0100000000#37)
theorem wrstatus (d : Word) : Statement (.wrstatus d) := (hostWord_masked true 1 d).trans
    (by decide : hostWord true 1 0 = 0x1100000000#37)
theorem wrlen (d : Word) : Statement (.wrlen d) := (hostWord_masked true 2 d).trans
    (by decide : hostWord true 2 0 = 0x1200000000#37)
theorem rdlen (d : Word) : Statement (.rdlen d) := (hostWord_masked false 2 d).trans
    (by decide : hostWord false 2 0 = 0x0200000000#37)
theorem rdrsvd (reg : BitVec 4) (d : Word) : Statement (.rdrsvd reg d) :=
  (hostWord_masked_wr false reg d).trans
    (by decide : hostWord false 0 0 = 0x0000000000#37)
theorem wrrsvd (reg : BitVec 4) (d : Word) : Statement (.wrrsvd reg d) :=
  (hostWord_masked_wr true reg d).trans
    (by decide : hostWord true 0 0 = 0x1000000000#37)

end Sys2Proof.Laws.TableRow
end

