-- ==== Sys2Proof/Tests/Slice0.lean ====
section
/-! SUPPORT. The model's own tests: expected values from spec/95_test_vectors.md and the rules' worked examples, and, for
each statement with hypotheses, a concrete case that meets them together. -/

namespace Sys2Proof.Tests

open Sys2Proof Sys2Proof.Machine

/-! ## Helpers -/

/-- The next state, if that is the answer. -/
def nextOf (o : Host.Outcome State Fault Refusal) : Option State :=
  match o with
  | .next t => some t
  | .fault _ => none
  | .refused _ => none

/-- A busy core at a position. -/
def busyAt (q : Seq) : State := { State.reset with SEQ := q, BUSY := true }

/-- The message "abc" in the message space (95_test_vectors.md, program P2). -/
def abcMessage : Memory := [(0, 0x61), (1, 0x62), (2, 0x63)]

/-- `a..h` after ROUND 63 of "abc" (95_test_vectors.md, section 6). -/
def abcVars : Vars :=
  ⟨0x506e3058, 0xd39a2165, 0x04d24d6c, 0xb85e2ce9, 0x5ef50f24, 0xfb121210, 0x948d25b6, 0x961f4894⟩

/-- `a..h` after ROUND 62 of "abc" (95_test_vectors.md, section 6). -/
def abcVars62 : Vars :=
  ⟨0xd39a2165, 0x04d24d6c, 0xb85e2ce9, 0xb6ae8fff, 0xfb121210, 0x948d25b6, 0x961f4894, 0xb21bad3d⟩

/-- `H` after FOLD of "abc" (95_test_vectors.md, section 7). -/
def abcHash : Vector Word 8 :=
  #v[0xba7816bf, 0x8f01cfea, 0x414140de, 0x5dae2223, 0xb00361a3, 0x96177a9c, 0xb410ff61, 0xf20015ad]

/-- The seed constants (R34), written out. -/
def seedWords : Vector Word 8 :=
  #v[0x6a09e667, 0xbb67ae85, 0x3c6ef372, 0xa54ff53a, 0x510e527f, 0x9b05688c, 0x1f83d9ab, 0x5be0cd19]

/-- An idle core with one byte of message admitted and `LEN = 1`, about to be started. -/
def startState : State :=
  { State.reset with LEN := 1, MSG := [(0, 0x61)], turns := [.access (hostWord true 0 1)] }

/-- A platform whose digest buffer begins at message index 2, everything in one plain memory. -/
def sharedAt2 : State := { State.reset with msgBinding := [⟨0, 4294967296, 0x1000, true⟩], digBinding := [⟨0, 32, 0x1002, true⟩] }

/-- A platform that lets the core read message index 0 and no other. -/
def readableOnly0 : Binding := [⟨0, 1, 0, true⟩, ⟨1, 4294967295, 1, false⟩]

/-- Registers on bus 1 at 0x40, 0x44, 0x48, ..., four bytes an access, the most significant first. -/
def busState : State := { State.reset with regBinding := ⟨1, 0x40, 4, 4, true⟩ }

/-! ## Well-formedness (R93, R95): one ill-formed term for each check, and the boundary that passes -/

theorem test_wellFormed_expw15_refused : (Instr.expw 15).wellFormed = false := by decide
theorem test_wellFormed_expw16 : (Instr.expw 16).wellFormed = true := by decide
theorem test_wellFormed_rdrsvd2_refused : (Instr.rdrsvd 2 0).wellFormed = false := by decide
theorem test_wellFormed_wrrsvd2_refused : (Instr.wrrsvd 2 0).wellFormed = false := by decide
theorem test_wellFormed_rsvd3 : (Instr.rdrsvd 3 0).wellFormed = true ∧ (Instr.wrrsvd 3 0).wellFormed = true := by
  decide

/-! ## Decoding: the words of 95_test_vectors.md, sections 8 and 9, bit by bit -/

theorem test_decode_idle : decode (.u 0b0000000000) = .ok .idle := by decide
theorem test_decode_seed : decode (.u 0b0001000000) = .ok .seed := by decide
theorem test_decode_frame : decode (.u 0b0010000000) = .ok .frame := by decide
theorem test_decode_loadw : decode (.u 0b0011001111) = .ok (.loadw 15) := by decide
theorem test_decode_expw : decode (.u 0b0100010000) = .ok (.expw 16) := by decide
theorem test_decode_initv : decode (.u 0b0101000000) = .ok .initv := by decide
theorem test_decode_round : decode (.u 0b0110111111) = .ok (.round 63) := by decide
theorem test_decode_fold : decode (.u 0b0111000000) = .ok .fold := by decide
theorem test_decode_serw : decode (.u 0b1000000111) = .ok (.serw 7) := by decide
theorem test_decode_finish : decode (.u 0b1001000000) = .ok .finish := by decide
theorem test_decode_wrctrl : decode (.h 0b1000000000000000000000000000000000001) = .ok (.wrctrl 1) := by decide
theorem test_decode_rdctrl : decode (.h 0b0000000000000000000000000000000000000) = .ok (.rdctrl 0) := by decide
theorem test_decode_rdstatus : decode (.h 0b0000100000000000000000000000000000000) = .ok (.rdstatus 0) := by decide
theorem test_decode_wrstatus : decode (.h 0b1000100000000000000000000000000000011) = .ok (.wrstatus 3) := by decide
theorem test_decode_wrlen : decode (.h 0b1001000000000000000000000000001000000) = .ok (.wrlen 64) := by decide
theorem test_decode_rdlen : decode (.h 0b0001000000000000000000000000000000000) = .ok (.rdlen 0) := by decide
theorem test_decode_rdrsvd : decode (.h 0b0111100000000000000000000000000000000) = .ok (.rdrsvd 15 0) := by decide
theorem test_decode_wrrsvd : decode (.h 0x17DEADBEEF) = .ok (.wrrsvd 7 0xDEADBEEF) := by decide

/-- R97: the first reserved code, and the words just outside the index ranges of LOADW, EXPW and SERW. -/
theorem test_decode_reserved :
    decode (.u 0x280) = .error (.reservedUop ⟨10, 0⟩) ∧ decode (.u 0x0D0) = .error (.idxOutOfRange ⟨3, 16⟩) ∧
      decode (.u 0x10F) = .error (.idxOutOfRange ⟨4, 15⟩) ∧ decode (.u 0x208) = .error (.idxOutOfRange ⟨8, 8⟩) := by
  decide

theorem test_encode_words :
    encode (.loadw 15) = .u 0x0CF ∧ encode (.expw 63) = .u 0x13F ∧ encode (.round 63) = .u 0x1BF ∧
      encode (.serw 7) = .u 0x207 ∧ encode (.wrlen 3) = .h 0x1200000003 := by
  decide

/-- A row of the opcode table, placed and run as the first instruction after reset (log 14). -/
theorem test_fetchWord_seed : (nextOf (step (State.reset.withFetchWord 16 0x040))).map (·.SEQ) = some ⟨2, 0⟩ := by
  decide
theorem test_fetchWord_wrlen :
    (nextOf (step (State.reset.withFetchWord 40 0x1200000003))).map (·.LEN) = some 3 := by decide

/-! ## Word functions (95_test_vectors.md, section 4; R124) -/

theorem test_shr : shr 0xffffffff 3 = 0x1fffffff ∧ shr 0x80000000 10 = 0x00200000 := by decide
theorem test_rotr : rotr 0x00000001 2 = 0x40000000 ∧ rotr 0x80000001 19 = 0x00003000 := by decide
theorem test_ch : ch 0xf0f0f0f0 0x12345678 0x9abcdef0 = 0x1a3c5e70 := by decide
theorem test_maj : maj 0x6a09e667 0xbb67ae85 0x3c6ef372 = 0x3a6fe667 := by decide
theorem test_bsig0 : bsig0 0x6a09e667 = 0xce20b47e := by decide
theorem test_bsig1 : bsig1 0x510e527f = 0x3587272b := by decide
theorem test_ssig0 : ssig0 0x61626380 = 0x940e90ef ∧ ssig0 0x00000018 = 0x30060003 := by decide
theorem test_ssig1 : ssig1 0x00000018 = 0x000f0000 ∧ ssig1 0x12345678 = 0xa1f78649 := by decide
theorem test_be32 : be32 0x61 0x62 0x63 0x80 = 0x61626380 := by decide
theorem test_byteOf : byteOf 0xba7816bf 0 = 0xba ∧ byteOf 0xba7816bf 3 = 0xbf := by decide

/-! ## Padding (R150, R151, R152, R153) -/

theorem test_zeroCount :
    zeroCount 0 = 55 ∧ zeroCount 55 = 0 ∧ zeroCount 56 = 63 ∧ zeroCount 63 = 56 ∧ zeroCount 64 = 55 := by decide
theorem test_paddedLength : paddedLength 55 = 64 ∧ paddedLength 56 = 128 ∧ paddedLength 120 = 192 := by decide
theorem test_bitLength : bitLength 0x20000000 = 0x0000000100000000 ∧ bitLength 0xffffffff = 0x00000007fffffff8 := by
  decide
theorem test_blockCount : blockCount 0 = 1 ∧ blockCount 56 = 2 ∧ blockCount 4294967295 = 67108865 := by decide

/-! ## The micro-operations -/

theorem test_idle_waits : exec .idle State.reset = .next State.reset := rfl

/-- R222: the seed constants, and the block counter cleared whatever it held. -/
theorem test_seed : (nextOf (exec .seed { busyAt seqSeed with N := 5 })).map (fun t => (t.H, t.N)) = some (seedWords, 0) := by
  decide

/-- Section 3, `L = 3`: message bytes, marker, a zero byte, last byte of the trailer. -/
theorem test_frame_abc :
    (nextOf (exec .frame { busyAt seqFrame with L := 3, MSG := abcMessage })).map
      (fun t => [t.BLOCK[0], t.BLOCK[2], t.BLOCK[3], t.BLOCK[4], t.BLOCK[63]]) = some [0x61, 0x63, 0x80, 0x00, 0x18] := by
  decide

/-- Section 3, `L = 2^29`, last block: the bit length needs more than 32 bits. -/
theorem test_frame_long :
    (nextOf (exec .frame { busyAt seqFrame with L := 536870912, N := 8388608 })).map
      (fun t => [t.BLOCK[0], t.BLOCK[58], t.BLOCK[59], t.BLOCK[60], t.BLOCK[63]]) = some [0x80, 0x00, 0x01, 0x00, 0x00] := by
  decide

/-- Section 5: LOADW 0 of "abc". -/
theorem test_loadw :
    (nextOf (exec (.loadw 0)
      { busyAt (seqLoadw 0) with BLOCK := ((((State.reset.BLOCK.set 0 0x61).set 1 0x62).set 2 0x63).set 3 0x80) })).map
      (fun t => (t.W[0], t.SEQ)) = some (0x61626380, ⟨3, 1⟩) := by
  decide

/-- Section 5: LOADW 15 of "abc", the last block word. -/
theorem test_loadw_last :
    (nextOf (exec (.loadw 15) { busyAt (seqLoadw 15) with BLOCK := State.reset.BLOCK.set 63 0x18 })).map
      (fun t => (t.W[15], t.SEQ)) = some (0x00000018, ⟨4, 16⟩) := by
  decide

/-- Section 5: EXPW 31 of "abc". -/
theorem test_expw31 :
    (nextOf (exec (.expw 31)
      { busyAt (seqExpw 31) with
        W := ((((State.reset.W.set 15 0x00000018).set 16 0x61626380).set 24 0xc8215c1a).set 29 0xec8726cb) })).map
      (fun t => t.W[31]) = some 0xd3b7973b := by
  decide

/-- Section 5: EXPW 63 of "abc", the last schedule word. -/
theorem test_expw63 :
    (nextOf (exec (.expw 63)
      { busyAt (seqExpw 63) with
        W := ((((State.reset.W.set 47 0x065c43da).set 48 0xfb3e89cb).set 56 0xef57b9cd).set 61 0x668b2ff8) })).map
      (fun t => (t.W[63], t.SEQ)) = some (0x12b1edeb, ⟨5, 0⟩) := by
  decide

/-- R201: `a = H[0]`, ..., `h = H[7]`. -/
theorem test_initv :
    (nextOf (exec .initv { busyAt seqInitv with H := seedWords })).map (·.v) =
      some ⟨0x6a09e667, 0xbb67ae85, 0x3c6ef372, 0xa54ff53a, 0x510e527f, 0x9b05688c, 0x1f83d9ab, 0x5be0cd19⟩ := by
  decide

/-- R202's worked example: ROUND 0 of "abc". -/
theorem test_round0 :
    (nextOf (exec (.round 0)
      { busyAt (seqRound 0) with v := varsOfVector seedWords, W := State.reset.W.set 0 0x61626380 })).map (·.v) =
      some ⟨0x5d6aebcd, 0x6a09e667, 0xbb67ae85, 0x3c6ef372, 0xfa2a4622, 0x510e527f, 0x9b05688c, 0x1f83d9ab⟩ := by
  decide

/-- Section 6: ROUND 63 of "abc", with the last constant. -/
theorem test_round63 :
    (nextOf (exec (.round 63)
      { busyAt (seqRound 63) with v := abcVars62, W := State.reset.W.set 63 0x12b1edeb })).map (fun t => (t.v, t.SEQ)) =
      some (abcVars, ⟨7, 0⟩) := by
  decide

/-- Section 7: FOLD of "abc"; one block, so SERW 0 is next. -/
theorem test_fold_abc :
    (nextOf (exec .fold { busyAt seqFold with L := 3, H := seedWords, v := abcVars })).map
      (fun t => (t.H, t.N, t.SEQ)) = some (abcHash, 1, ⟨8, 0⟩) := by
  decide

/-- Section 9, program P3, step 132: with `NBLK = 2` the first FOLD goes back to FRAME. -/
theorem test_fold_loops : (nextOf (exec .fold { busyAt seqFold with L := 64 })).map (·.SEQ) = some ⟨2, 0⟩ := by decide

/-- Section 8: SERW 0 of "abc", over a byte the host left there. -/
theorem test_serw0 :
    (nextOf (exec (.serw 0) { busyAt (seqSerw 0) with H := abcHash, DIG := [(1, 0xff), (4, 0xee)] })).map
      (fun t => (t.DIG, t.SEQ)) =
      some ([(0, 0xba), (1, 0x78), (2, 0x16), (3, 0xbf), (4, 0xee)], ⟨8, 1⟩) := by
  decide

/-- Section 8: SERW 7 of "abc", a word with a zero byte. -/
theorem test_serw7 :
    (nextOf (exec (.serw 7) { busyAt (seqSerw 7) with H := abcHash })).map (fun t => (t.DIG, t.SEQ)) =
      some ([(28, 0xf2), (29, 0x00), (30, 0x15), (31, 0xad)], ⟨9, 0⟩) := by
  decide

/-- R234: STATUS reads 1 before FINISH and 2 after. -/
theorem test_finish :
    statusWord (busyAt seqFinish) = 1 ∧
      (nextOf (exec .finish (busyAt seqFinish))).map (fun t => (statusWord t, t.SEQ)) = some (2, ⟨0, 0⟩) := by
  decide

/-! ## The host's register accesses (95_test_vectors.md, section 8; the step numbers are that table's) -/

/-- Step 14: bit 0 set, bit 1 ignored. -/
theorem test_wrctrl_start :
    (nextOf (exec (.wrctrl 3) { State.reset with LEN := 3, DONE := true })).map
      (fun t => (t.L, t.BUSY, t.DONE, t.SEQ)) = some (3, true, false, ⟨1, 0⟩) := by
  decide

/-- Steps 9 and 17: without bit 0, or while busy, nothing happens. -/
theorem test_wrctrl_ignored :
    exec (.wrctrl 0xFFFFFFFE) State.reset = .next State.reset ∧
      exec (.wrctrl 1) (busyAt seqSeed) = .next (busyAt seqSeed) := ⟨rfl, rfl⟩

theorem test_rdctrl : (nextOf (exec (.rdctrl 0) { State.reset with readData := 9 })).map (·.readData) = some 0 := by decide
theorem test_rdstatus : (nextOf (exec (.rdstatus 0) (busyAt seqSeed))).map (·.readData) = some 1 := by decide

/-- Steps 6 and 7. -/
theorem test_wrstatus : exec (.wrstatus 3) State.reset = .next State.reset := rfl

/-- Step 16: while busy LEN changes and L does not. -/
theorem test_wrlen : (nextOf (exec (.wrlen 64) { busyAt seqSeed with LEN := 3, L := 3 })).map (fun t => (t.LEN, t.L)) =
    some (64, 3) := by decide

/-- Step 4. -/
theorem test_rdlen :
    (nextOf (exec (.rdlen 0) { State.reset with LEN := 0xffffffff })).map (·.readData) = some 0xffffffff := by decide

theorem test_rdrsvd : (nextOf (exec (.rdrsvd 15 0) { State.reset with readData := 9 })).map (·.readData) = some 0 := by
  decide

/-- Step 11. -/
theorem test_wrrsvd : exec (.wrrsvd 7 0xDEADBEEF) State.reset = .next State.reset := rfl

/-! ## Stops and the outside's moves -/

/-- R302: a length of 3 reaches the shared byte at index 2; a length of 2 does not. -/
theorem test_overlap :
    exec (.wrctrl 1) { sharedAt2 with LEN := 3 } = .refused .buffersOverlap ∧
      (nextOf (exec (.wrctrl 1) { sharedAt2 with LEN := 2 })).isSome = true :=
  ⟨rfl, by decide⟩

/-- R300 (c): 31 writable digest indices are not enough. -/
theorem test_notWritable :
    exec (.wrctrl 1) { State.reset with digBinding := [⟨0, 31, 0, true⟩, ⟨31, 1, 31, false⟩] } =
      .refused .digestNotWritable := rfl

/-- R300 (b), R69: a byte that is stored but not readable; the store does not make it so, and FRAME is stuck. -/
theorem test_unreadable :
    (nextOf (step { busyAt seqFrame with L := 2, msgBinding := readableOnly0, turns := [.storeMsg 1 0x62] })).map
        (fun t => (memReadMsg t 1, exec .frame t)) = some (none, .fault .stuckMessageRead) := rfl

/-- R302: a host store to a message byte that is digest byte 29 too is seen by a load of the digest. -/
theorem test_sharedStore :
    (nextOf (step { sharedAt2 with DONE := true, turns := [.storeMsg 31 7, .loadDig 29] })).map
        (fun t => (nextOf (step t)).map (·.loadData)) = some (some 7) := by
  decide

/-- R9, R64: LEN is register 2, at base + 2 * stride; the same bytes in the other order give the other value. -/
theorem test_bus :
    (nextOf (step { busState with turns := [.bus true 1 0x48 [[0x12, 0x34, 0x56, 0x78]]] })).map (·.LEN) =
        some 0x12345678 ∧
      (nextOf (step { busState with
        regBinding := ⟨1, 0x40, 4, 4, false⟩, turns := [.bus true 1 0x48 [[0x12, 0x34, 0x56, 0x78]]] })).map (·.LEN) =
        some 0x78563412 := by
  decide

/-- R9: a register over a bus of two bytes an access and over one of eight; half an exchange reaches nothing. -/
theorem test_busWidth :
    (nextOf (step { busState with
        regBinding := ⟨1, 0x40, 4, 2, true⟩, turns := [.bus true 1 0x48 [[0x12, 0x34], [0x56, 0x78]]] })).map (·.LEN) =
        some 0x12345678 ∧
      (nextOf (step { busState with
        regBinding := ⟨1, 0x40, 8, 8, true⟩, turns := [.bus true 1 0x50 [[0x12, 0x34, 0x56, 0x78, 1, 2, 3, 4]]] })).map
        (·.LEN) = some 0x12345678 ∧
      (nextOf (step { busState with
        regBinding := ⟨1, 0x40, 4, 2, true⟩, turns := [.bus true 1 0x48 [[0x12, 0x34]]] })).map (·.LEN) = some 0 := by
  decide

/-! ## The round constants (R33) -/

theorem test_roundConstants :
    sel64 K 0 = 0x428a2f98 ∧ sel64 K 7 = 0xab1c5ed5 ∧ sel64 K 8 = 0xd807aa98 ∧ sel64 K 63 = 0xc67178f2 := by decide

/-- Program P5: the reset in the middle of SERW; the status and the length read 0 after it. -/
theorem test_reset_turn :
    (nextOf (step { busyAt (seqSerw 4) with LEN := 64, turns := [.reset] })).map
      (fun t => (t.SEQ, statusWord t, t.LEN)) = some (⟨0, 0⟩, 0, 0) := by
  decide

/-- R303: with `DONE = 1` the load returns the digest byte. -/
theorem test_loadDig :
    (nextOf (step { State.reset with DONE := true, DIG := [(31, 0xad)], turns := [.loadDig 31] })).map (·.loadData) =
      some 0xad := by
  decide

/-! ## Witnesses: for each statement with hypotheses, in the file's order, values that meet them together -/

theorem witness_DecodeOfEncodeIsIdentity : (Instr.wrrsvd 15 0xffffffff).wellFormed = true := by decide

theorem witness_EncodeOfDecodeIsIdentity : decode (.u 0x13F) = .ok (.expw 63) := by decide

theorem witness_ReservedSequencerWordIsRefused :
    ¬legalSeq (busyAt ⟨10, 0⟩).SEQ ∧ ¬legalSeq (busyAt ⟨4, 15⟩).SEQ ∧ (15 : BitVec 6).toNat < 16 := by
  decide

theorem witness_TurnRunsDecodedOperation_core :
    decode (.u State.reset.SEQ.word) = .ok .idle ∧ State.reset.turns = [] ∧
      ({ State.reset with turns := [.core, .reset] } : State).turns = .core :: [.reset] := by
  decide

theorem witness_TurnRunsDecodedOperation_access :
    decode (.h 0x1000000001) = .ok (.wrctrl 1) ∧
      ({ State.reset with turns := [.access 0x1000000001] } : State).turns = .access 0x1000000001 :: [] := by
  decide

/-- A write of LEN (register 2) as one access of four bytes, most significant first, and as four of one byte, least
significant first. -/
theorem witness_TurnRunsDecodedOperation_bus :
    (fun s : State =>
      s.turns = .bus true 1 0x48 [[0, 0, 0, 3]] :: [] ∧ 1 = s.regBinding.bus ∧
        (∀ bytes ∈ ([[0, 0, 0, 3]] : List (List Byte)), bytes.length = s.regBinding.width) ∧
        4 ≤ 1 * s.regBinding.width ∧ (1 - 1) * s.regBinding.width < 4 ∧
        ([[0, 0, 0, 3]] : List (List Byte)).flatten = 0 :: 0 :: 0 :: 3 :: [] ∧
        s.regBinding.base + s.regBinding.stride * (2 : BitVec 4).toNat = 0x48 ∧
        (∀ r, r < (2 : BitVec 4).toNat → s.regBinding.base + s.regBinding.stride * r ≠ 0x48) ∧
        s.regBinding.bigEndian = true ∧ decode (.h (hostWord true 2 (be32 0 0 0 3))) = .ok (.wrlen 3))
        { busState with turns := [.bus true 1 0x48 [[0, 0, 0, 3]]] } ∧
      (fun s : State =>
        s.turns = .bus true 1 0x48 [[3], [0], [0], [0]] :: [] ∧ 1 = s.regBinding.bus ∧
          (∀ bytes ∈ ([[3], [0], [0], [0]] : List (List Byte)), bytes.length = s.regBinding.width) ∧
          4 ≤ 4 * s.regBinding.width ∧ (4 - 1) * s.regBinding.width < 4 ∧
          ([[3], [0], [0], [0]] : List (List Byte)).flatten = 3 :: 0 :: 0 :: 0 :: [] ∧
          s.regBinding.base + s.regBinding.stride * (2 : BitVec 4).toNat = 0x48 ∧
          (∀ r, r < (2 : BitVec 4).toNat → s.regBinding.base + s.regBinding.stride * r ≠ 0x48) ∧
          s.regBinding.bigEndian = false ∧ decode (.h (hostWord true 2 (be32 0 0 0 3))) = .ok (.wrlen 3))
        { busState with regBinding := ⟨1, 0x40, 4, 1, false⟩, turns := [.bus true 1 0x48 [[3], [0], [0], [0]]] } := by
  decide

/-- The five ways to reach no register: another bus, another width, too few accesses, too many, no register there. -/
theorem witness_TurnRunsDecodedOperation_noRegister :
    (fun b : RegBinding =>
      2 ≠ b.bus ∧ (∃ bytes ∈ ([[0, 0]] : List (List Byte)), bytes.length ≠ b.width) ∧
        0 * b.width < 4 ∧ 4 ≤ (2 - 1) * b.width ∧ ∀ r, r < 16 → b.base + b.stride * r ≠ 0x80)
      busState.regBinding := by
  decide

theorem witness_RotateAndShiftRight : (0 ≤ 31 ∧ 31 ≤ 31) ∧ (1 ≤ 1 ∧ 1 ≤ 31) ∧ 1 ≤ 31 ∧ 31 ≤ 31 ∧ 31 < 32 := by decide

theorem witness_ChooseAndMajorityBitwise : 0 < 32 ∧ 31 < 32 := by decide

theorem witness_BigSigmaFunctionsBitwise : 0 < 32 ∧ 31 < 32 := by decide

theorem witness_SmallSigmaFunctionsBitwise :
    0 < 32 ∧ 31 < 32 ∧ 28 + 3 < 32 ∧ ¬29 + 3 < 32 ∧ 21 + 10 < 32 ∧ ¬22 + 10 < 32 := by
  decide

theorem witness_ZeroCountIsLeast : (56 + 1 + 63 + 8) % 64 = 0 ∧ 55 % 64 = 55 ∧ 56 % 64 = 56 := by decide

theorem witness_PaddingQuantities : 4294967295 ≤ 2 ^ 32 - 1 ∧ 55 % 64 ≤ 55 ∧ 56 ≤ 56 % 64 := by decide

theorem witness_PaddedStreamInvariants : 0 < 3 ∧ 2 < 3 ∧ 0 < (1 : Word).toNat := by decide

theorem witness_PaddingIsInjective :
    paddedLength (3 : Word).toNat = paddedLength (3 : Word).toNat ∧
      ∀ i, i < paddedLength (3 : Word).toNat →
        paddedByte 3 (messageOf 0 abcMessage) i = paddedByte 3 (messageOf 0 (abcMessage ++ [(7, 0xff)])) i := by
  decide

/-- `L = 119` (one block of message, marker at offset 55) and `L = 120` (the trailer in a block of its own): each clause at
the boundary of its range. -/
theorem witness_BlockShapes :
    0 < (119 : Word).toNat / 64 ∧ (54 : BitVec 6).toNat < (119 : Word).toNat % 64 ∧
      (55 : BitVec 6).toNat = (119 : Word).toNat % 64 ∧ (119 : Word).toNat % 64 ≤ 55 ∧
      ((118 : Word).toNat % 64 ≤ 55 ∧ (118 : Word).toNat % 64 < (55 : BitVec 6).toNat ∧ (55 : BitVec 6).toNat < 56) ∧
      (56 ≤ (120 : Word).toNat % 64 ∧ (120 : Word).toNat % 64 < (57 : BitVec 6).toNat) ∧
      (55 : BitVec 6).toNat < 56 ∧ 56 ≤ (56 : BitVec 6).toNat := by
  decide

/-- Block 1 of a 65-byte message: one message byte, the marker, zeros at offsets 2 to 55, the trailer. -/
theorem witness_FrameResult :
    (fun s : State =>
      s.N.toNat < blockCount s.L.toNat ∧ readsAdmitted s ∧
        64 * s.N.toNat + 0 < s.L.toNat ∧ 64 * s.N.toNat + 1 = s.L.toNat ∧ s.L.toNat < 64 * s.N.toNat + 2 ∧
        64 * s.N.toNat + 55 < paddedLength s.L.toNat - 8 ∧ paddedLength s.L.toNat - 8 ≤ 64 * s.N.toNat + 56)
      { busyAt seqFrame with L := 65, N := 1, MSG := [(64, 0x6d)] } := by
  decide

theorem witness_FrameWithoutAdmissionIsStuck :
    (fun s : State =>
      s.N.toNat < blockCount s.L.toNat ∧ ∃ i ∈ readsOfBlock s.L.toNat s.N.toNat, memReadMsg s i = none)
      { busyAt seqFrame with L := 2, MSG := [(0, 0x61), (1, 0x62)], msgBinding := readableOnly0 } := by
  decide

theorem witness_BlockPastTheLastIsRefused :
    (fun s : State => blockCount s.L.toNat ≤ s.N.toNat) { State.reset with N := 1 } := by
  decide

theorem witness_FrameIgnoresBytesAboveLength :
    (fun s : State =>
      (∀ i, i < s.L.toNat →
        memReadMsg { s with MSG := abcMessage ++ [(3, 0xff)], msgBinding := [⟨0, 3, 0x80, true⟩], powerOn := 1 } i =
          memReadMsg s i) ∧
        (nextOf (exec .frame s)).isSome = true)
      { busyAt seqFrame with L := 3, MSG := abcMessage } := by
  decide

theorem witness_LoadwResult : (16 : BitVec 6).toNat ≠ (15 : BitVec 4).toNat := by decide

theorem witness_ExpwResult : 16 ≤ (16 : BitVec 6).toNat ∧ 16 ≤ (63 : BitVec 6).toNat ∧ (15 : BitVec 6) ≠ 16 := by decide

theorem witness_ScheduleRecurrence : (15 : BitVec 6).toNat < 16 ∧ 16 ≤ (16 : BitVec 6).toNat := by decide

theorem witness_RoundIsInvertible : rnd abcVars 1 2 = rnd (varsOfVector (varsToVector abcVars)) 1 2 := by decide

/-- Both outcomes of FOLD: back to FRAME with two blocks, on to SERW with one; COMPRESS has the same premise. -/
theorem witness_FoldResult :
    (fun s : State => s.N.toNat < blockCount s.L.toNat ∧ s.N.toNat + 1 < blockCount s.L.toNat)
        { busyAt seqFold with L := 64 } ∧
      (fun s : State => s.N.toNat < blockCount s.L.toNat ∧ ¬s.N.toNat + 1 < blockCount s.L.toNat)
        { busyAt seqFold with L := 64, N := 1 } := by
  decide

theorem witness_CompressOperationsComputeCompress :
    (fun s : State => s.N.toNat < blockCount s.L.toNat) { busyAt seqFold with L := 64, N := 1 } := by
  decide

theorem witness_SerwResult :
    0 < 4 ∧ 3 < 4 ∧ 3 < 4 * (1 : BitVec 3).toNat ∧ 4 * (1 : BitVec 3).toNat + 3 < 8 := by decide

/-- The core has a step at the first and last position of every row of R221's table, FOLD on both its outcomes. -/
theorem witness_SuccessorFunction :
    (∀ q ∈ [(⟨0, 0⟩ : Seq), ⟨1, 0⟩, ⟨2, 0⟩, ⟨3, 0⟩, ⟨3, 14⟩, ⟨3, 15⟩, ⟨4, 16⟩, ⟨4, 62⟩, ⟨4, 63⟩, ⟨5, 0⟩, ⟨6, 0⟩,
        ⟨6, 62⟩, ⟨6, 63⟩, ⟨7, 0⟩, ⟨8, 0⟩, ⟨8, 6⟩, ⟨8, 7⟩, ⟨9, 0⟩],
      (nextOf (coreStep (busyAt q))).isSome = true) ∧
      (nextOf (coreStep { busyAt seqFold with L := 64 })).isSome = true := by
  decide

theorem witness_CoreIsEnabled :
    (fun s : State => sequencerInv s ∧ s.SEQ.uop = 2 ∧ readsAdmitted s)
      { busyAt seqFrame with L := 3, MSG := abcMessage } := by
  decide

/-- The message ends just below the shared byte. -/
theorem witness_StartIsAccepted :
    (0xffffffff : Word).toNat % 2 = 1 ∧
      (fun s : State =>
        s.BUSY = false ∧ (∀ j, j < 32 → Binding.permits s.digBinding j = true) ∧
          ∀ i j a, i < s.LEN.toNat → j < 32 → Binding.address s.msgBinding i = some a →
            Binding.address s.digBinding j ≠ some a)
        { sharedAt2 with LEN := 2 } := by
  refine ⟨by decide, rfl, by decide, fun i j a hi hj h => ?_⟩
  have key : ∀ i, i < 2 → ∀ j, j < 32 →
      Binding.address sharedAt2.digBinding j ≠ Binding.address sharedAt2.msgBinding i := by decide
  exact fun e => key i hi j hj (e.trans h.symm)

theorem witness_StartIsIgnored : (0xfffffffe : Word).toNat % 2 = 0 ∧ (busyAt seqSeed).BUSY = true := by decide

theorem witness_ForbiddenLaunchIsRefused :
    (1 : Word).toNat % 2 = 1 ∧
      (fun s : State => s.BUSY = false ∧ Binding.permits s.digBinding 31 = false)
        { State.reset with digBinding := [⟨0, 31, 0, true⟩] } ∧
      (fun s : State =>
        s.BUSY = false ∧ (∀ j, j < 32 → Binding.permits s.digBinding j = true) ∧ 2 < s.LEN.toNat ∧
          Binding.address s.msgBinding 2 = some 0x1002 ∧ Binding.address s.digBinding 0 = some 0x1002)
        { sharedAt2 with LEN := 3 } := by
  decide

theorem witness_StatusRead :
    flagsExclusive State.reset ∧ flagsExclusive (busyAt seqSeed) ∧ flagsExclusive { State.reset with DONE := true } := by
  decide

theorem witness_HostAccessWhileBusy : isHostAccess (.wrctrl 1) = true ∧ (busyAt seqSeed).BUSY = true := by decide

theorem witness_HostDigestLoad :
    (fun s : State =>
      s.turns = .loadDig 31 :: [] ∧ s.DONE = true ∧ s.digTaint.getLsbD (31 : BitVec 5).toNat = false ∧
        Memory.lookup s.DIG (31 : BitVec 5).toNat = some 0xad)
      { State.reset with DONE := true, DIG := [(31, 0xad)], turns := [.loadDig 31] } := by
  decide

/-- The last index below `L` while busy, the first at `L` while busy, an idle core, and a store to a shared byte. -/
theorem witness_HostMessageStore :
    (fun s : State =>
      s.turns = .storeMsg 2 0xff :: [] ∧ s.BUSY = true ∧ (2 : BitVec 32).toNat < s.L.toNat ∧
        Binding.permits s.msgBinding (2 : BitVec 32).toNat = true)
        { busyAt seqSeed with L := 3, turns := [.storeMsg 2 0xff] } ∧
      (fun s : State => s.turns = .storeMsg 3 0xff :: [] ∧ s.L.toNat ≤ (3 : BitVec 32).toNat)
        { busyAt seqSeed with L := 3, turns := [.storeMsg 3 0xff] } ∧
      (fun s : State => s.turns = .storeMsg 0 0xff :: [] ∧ s.BUSY = false)
        { State.reset with L := 3, turns := [.storeMsg 0 0xff] } ∧
      (fun s : State =>
        s.turns = .storeMsg 33 0xff :: [] ∧ Binding.address s.msgBinding (33 : BitVec 32).toNat = some 0x1021 ∧
          Binding.address s.digBinding 31 = some 0x1021 ∧
          Binding.address s.msgBinding (33 : BitVec 32).toNat ≠ Binding.address s.digBinding 30)
        { sharedAt2 with turns := [.storeMsg 33 0xff] } := by
  decide

/-- While busy, and after `DONE = 1` with a load of the same byte next. -/
theorem witness_HostDigestStore :
    (fun s : State => s.turns = .storeDig 31 7 :: [] ∧ s.BUSY = true)
        { busyAt (seqSerw 0) with turns := [.storeDig 31 7] } ∧
      (fun s : State => s.turns = .storeDig 31 7 :: [.loadDig 31] ∧ s.DONE = true ∧ s.BUSY = false)
        { State.reset with DONE := true, turns := [.storeDig 31 7, .loadDig 31] } := by
  decide

theorem witness_ResetTurn :
    ({ busyAt (seqSerw 4) with turns := [.reset] } : State).turns = .reset :: [] := by
  decide

theorem witness_RegisterWriters :
    step State.reset = .next State.reset ∧ exec .idle State.reset = .next State.reset ∧
      (Instr.idle ≠ .seed ∧ Instr.idle ≠ .fold ∧ Instr.idle ≠ .initv ∧ Instr.idle ≠ .frame ∧ Instr.idle ≠ .finish) ∧
      (∀ k, Instr.idle ≠ .round k) ∧ (∀ k, Instr.idle ≠ .loadw k) ∧ (∀ k, Instr.idle ≠ .expw k) ∧
      (∀ d, Instr.idle ≠ .wrctrl d) ∧ (∀ d, Instr.idle ≠ .wrlen d) ∧ ∀ k, Instr.idle ≠ .serw k :=
  ⟨rfl, rfl, by decide, by simp, by simp, by simp, by simp, by simp, by simp⟩

/-- A busy core stays busy in a host write of the length. -/
theorem witness_LatchedLengthIsFixedWhileBusy :
    (busyAt seqSeed).BUSY = true ∧
      (nextOf (step { busyAt seqSeed with L := 3, turns := [.access 0x1200000040] })).map (fun t => (t.BUSY, t.LEN)) =
        some (true, 64) := by
  decide

/-- FINISH, an accepted START after it, the first START after reset, and a reset: the steps that change a flag. -/
theorem witness_FlagsChangeOnlyAtStartFinishReset :
    (nextOf (step (busyAt seqFinish))).map (fun t => (t.BUSY, t.DONE)) = some (false, true) ∧
      (nextOf (step { State.reset with DONE := true, turns := [.access 0x1000000001] })).map
        (fun t => (t.BUSY, t.DONE)) = some (true, false) ∧
      (nextOf (step { State.reset with turns := [.access 0x1000000001] })).map (fun t => (t.BUSY, t.DONE)) =
        some (true, false) ∧
      (nextOf (step { busyAt seqSeed with turns := [.reset] })).map (fun t => (t.BUSY, t.DONE)) = some (false, false) := by
  decide

theorem witness_StepKeepsSequencerInvariants :
    sequencerInv { busyAt seqFold with L := 64, N := 1 } ∧
      (nextOf (step { busyAt seqFold with L := 64, N := 1 })).map (·.N) = some 2 := by
  decide

theorem witness_StepKeepsMemoryForm :
    memoryWf { busyAt (seqSerw 7) with DIG := [(0, 0xba), (30, 0)], MSG := [(4294967295, 1)] } ∧
      (nextOf (step { busyAt (seqSerw 7) with DIG := [(0, 0xba), (30, 0)] })).isSome = true := by
  decide

/-- At FRAME of the first block of "abc", the hash state holds the seed constants. -/
theorem witness_StepKeepsFunctionalInvariant :
    (fun s : State => sequencerInv s ∧ tracksFunction s)
        { busyAt seqFrame with L := 3, H := IV, MSG := abcMessage } ∧
      (nextOf (step { busyAt seqFrame with L := 3, H := IV, MSG := abcMessage })).isSome = true :=
  ⟨⟨by decide, fun _ => rfl⟩, by decide⟩

/-- A table of 32 bytes, index by index. -/
theorem lookup_table (f : Nat → Byte) (n : Nat) :
    ∀ k i, k ≤ i → i < k + n → Memory.lookup ((List.range' k n).map fun j => (j, f j)) i = some (f i) := by
  induction n with
  | zero => intro k i h1 h2; omega
  | succ n ih =>
    intro k i h1 h2
    rw [List.range'_succ, List.map_cons, Memory.lookup]
    by_cases h : k = i
    · simp [h]
    · simp only [h, if_false]
      exact ih (k + 1) i (by omega) (by omega)

/-- A state before FINISH of the empty message. -/
def finishState : State :=
  { busyAt seqFinish with
    N := 1
    H := finalHash 0 (messageOf 0 [])
    DIG := (List.range' 0 32).map fun j => (j, sha256Byte 0 (messageOf 0 []) (BitVec.ofNat 5 j)) }

theorem witness_DigestIsRightAtFinishAndKept :
    sequencerInv finishState ∧ tracksFunction finishState ∧ finishState.SEQ = ⟨9, 0⟩ ∧
      finishState.digTaint ≠ BitVec.allOnes 32 ∧ ∀ j : BitVec 5, finishState.digTaint.getLsbD j.toNat = false := by
  refine ⟨by decide, fun _ => ⟨rfl, fun j h _ => ?_⟩, rfl, by decide, by decide⟩
  have h := lookup_table (fun j => sha256Byte 0 (messageOf 0 []) (BitVec.ofNat 5 j)) 32 0 j.toNat (by omega) (by omega)
  rw [show BitVec.ofNat 5 j.toNat = j by simp] at h
  exact h

/-- With `DONE = 1`, a host store to another digest byte, and to a message byte that no digest byte shares. -/
theorem witness_DigestIsRightAtFinishAndKept_kept :
    (∀ turn ∈ [Turn.storeDig 30 7, .storeMsg 1 7],
      (fun s : State =>
        sequencerInv s ∧ s.DONE = true ∧ (nextOf (step s)).map (·.DONE) = some true ∧
          s.turns = [turn] ∧ turn ≠ .storeDig 31 7 ∧
          Binding.address s.msgBinding (1 : BitVec 32).toNat ≠ Binding.address s.digBinding (31 : BitVec 5).toNat)
        { State.reset with DONE := true, turns := [turn] }) := by
  decide

theorem witness_InvocationTraceIsExact :
    (fun s : State => s.SEQ = ⟨1, 0⟩ ∧ messageReadable s) { busyAt seqSeed with L := 3, MSG := abcMessage } :=
  ⟨rfl, by unfold messageReadable; decide⟩

theorem witness_InvocationComputesSha256 :
    startState.turns = [.access (hostWord true 0 1)] ∧ (1 : Word).toNat % 2 = 1 ∧ startState.BUSY = false ∧
      launchAllowed startState ∧ ∀ i, i < startState.LEN.toNat → (memReadMsg startState i).isSome = true := by
  decide

/-- Two machines with the same message and different pasts: another hash state, other bytes beyond the message. -/
theorem witness_DigestDependsOnMessageOnly :
    (fun s s' : State =>
      s.turns = [.access (hostWord true 0 1)] ∧ s'.turns = [.access (hostWord true 0 3)] ∧
        (1 : Word).toNat % 2 = 1 ∧ (3 : Word).toNat % 2 = 1 ∧ s.BUSY = false ∧ s'.BUSY = false ∧
        launchAllowed s ∧ launchAllowed s' ∧ s'.LEN = s.LEN ∧
        ∀ i, i < s.LEN.toNat → (memReadMsg s i).isSome = true ∧ memReadMsg s' i = memReadMsg s i)
      startState
      { startState with
        H := abcHash, DONE := true, MSG := [(0, 0x61), (1, 0xff)], turns := [.access (hostWord true 0 3)] } := by
  decide

end Sys2Proof.Tests
end

/-! PROOFS. Scope: what one turn runs, what FRAME depends on, and what a host store to the message does. -/

namespace Sys2Proof.Machine

/-! ## One turn (R23, R237, R266): `step` by the turn listed first -/

theorem step_of_turns_nil {s : State} (h : s.turns = []) : step s = coreStep s := by
  simp [step, h]

theorem step_of_turns_core {s : State} {rest : List Turn} (h : s.turns = .core :: rest) :
    step s = coreStep { s with turns := rest } := by
  simp [step, h]

theorem step_of_turns_access {s : State} {w : BitVec 37} {rest : List Turn} (h : s.turns = .access w :: rest) :
    step s = exec (decodeHost w) { s with turns := rest } := by
  simp [step, h]

theorem step_of_turns_storeMsg {s : State} {i : BitVec 32} {b : Byte} {rest : List Turn}
    (h : s.turns = .storeMsg i b :: rest) : step s = .next (hostStoreMsg i b { s with turns := rest }) := by
  simp [step, h]

section Bus

variable {s : State} {wr : Bool} {bus address : Nat} {accesses : List (List Byte)} {rest : List Turn}

theorem step_of_busAccess_some {w : BitVec 37} (h : s.turns = .bus wr bus address accesses :: rest)
    (hw : busAccess s.regBinding wr bus address accesses = some w) :
    step s = exec (decodeHost w) { s with turns := rest } := by
  simp [step, h, hw]

theorem step_of_busAccess_none (h : s.turns = .bus wr bus address accesses :: rest)
    (hw : busAccess s.regBinding wr bus address accesses = none) : step s = .next { s with turns := rest } := by
  simp [step, h, hw]

end Bus

theorem coreStep_of_decodeSeq {s : State} {i : Instr} (h : decodeSeq s.SEQ = .ok i) : coreStep s = exec i s := by
  simp [coreStep, currentOperation, h]

@[simp] theorem decode_word (q : Seq) : decode (.u q.word) = decodeSeq q := by
  simp [decode]

theorem decodeHost_of_decode {w : BitVec 37} {i : Instr} (h : decode (.h w) = .ok i) : decodeHost w = i :=
  Except.ok.inj h

/-! ## Accesses on a bus (R9, R64) -/

theorem wordOf_of_flatten {accesses : List (List Byte)} {b0 b1 b2 b3 : Byte} {others : List Byte} (b : RegBinding)
    (h : accesses.flatten = b0 :: b1 :: b2 :: b3 :: others) :
    RegBinding.wordOf b accesses = some (if b.bigEndian then be32 b0 b1 b2 b3 else be32 b3 b2 b1 b0) := by
  simp [RegBinding.wordOf, h]

/-- Accesses that reach no register: on another bus, of another width, too few, too many, or where none stands. -/
theorem busAccess_eq_none {b : RegBinding} {bus address : Nat} {accesses : List (List Byte)} (wr : Bool)
    (h : bus ≠ b.bus ∨ (∃ bytes ∈ accesses, bytes.length ≠ b.width) ∨ accesses.length * b.width < 4 ∨
      4 ≤ (accesses.length - 1) * b.width ∨ ∀ r, r < 16 → b.base + b.stride * r ≠ address) :
    busAccess b wr bus address accesses = none := by
  rw [Option.eq_none_iff_forall_ne_some]
  intro w hw
  obtain ⟨hbus, hwhole, reg, x, hreg, -, -⟩ := busAccess_eq_some.mp hw
  obtain ⟨hwidth, hfew, hmany⟩ := (exchangesWhole_iff b accesses).mp hwhole
  rcases h with h | ⟨bytes, hmem, h⟩ | h | h | h
  · exact h hbus
  · exact h (hwidth bytes hmem)
  · omega
  · omega
  · rw [register_eq_none h] at hreg
    cases hreg

/-- R13, R131: the four bytes of a word, packed again, are the word. -/
@[simp] theorem be32_byteOf (x : Word) : be32 (byteOf x 0) (byteOf x 1) (byteOf x 2) (byteOf x 3) = x := by
  show x.extractLsb' 24 8 ++ x.extractLsb' 16 8 ++ x.extractLsb' 8 8 ++ x.extractLsb' 0 8 = x
  rw [BitVec.extractLsb'_append_extractLsb'_eq_extractLsb' (start₁ := 16) (len₁ := 8) rfl,
    BitVec.extractLsb'_append_extractLsb'_eq_extractLsb' (start₁ := 8) (len₁ := 8) rfl,
    BitVec.extractLsb'_append_extractLsb'_eq_extractLsb' (start₁ := 0) (len₁ := 8) rfl]
  exact BitVec.extractLsb'_eq_self

/-- Settles O7: `step` by its first turn; a bus turn is the access `busAccess` finds, or nothing. -/
theorem turnRunsDecodedOperation : Obligations.TurnRunsDecodedOperation := by
  unfold Obligations.TurnRunsDecodedOperation
  refine ⟨fun s i => ⟨fun hd => ?core, fun w rest hd ht => ?access⟩,
    fun s wr bus address accesses rest ht =>
      ⟨fun reg i b0 b1 b2 b3 others hbus hwidth hfew hmany hbytes hreg hmin => ?reach, fun h => ?noReach⟩,
    fun b x => ?bytes⟩
  case core =>
    rw [decode_word] at hd
    exact ⟨fun ht => (step_of_turns_nil ht).trans (coreStep_of_decodeSeq hd),
      fun rest ht => (step_of_turns_core ht).trans (coreStep_of_decodeSeq hd)⟩
  case access => rw [step_of_turns_access ht, decodeHost_of_decode hd]
  case reach =>
    have hwhole := (exchangesWhole_iff _ _).mpr ⟨hwidth, hfew, hmany⟩
    have hstep := step_of_busAccess_some ht (busAccess_eq_some.mpr
      ⟨hbus, hwhole, reg, _, register_eq_some hreg hmin, wordOf_of_flatten _ hbytes, rfl⟩)
    exact ⟨fun he hd => by rw [hstep, if_pos he, decodeHost_of_decode hd],
      fun he hd => by rw [hstep, if_neg (Bool.eq_false_iff.mp he), decodeHost_of_decode hd]⟩
  case noReach => exact step_of_busAccess_none ht (busAccess_eq_none wr h)
  case bytes =>
    unfold RegBinding.bytesOf
    cases b.bigEndian
    · exact ⟨byteOf x 3, byteOf x 2, byteOf x 1, byteOf x 0, rfl, nofun, fun _ => (be32_byteOf x).symm⟩
    · exact ⟨byteOf x 0, byteOf x 1, byteOf x 2, byteOf x 3, rfl, fun _ => (be32_byteOf x).symm, nofun⟩

/-! ## FRAME depends on the reads it issues (R66, R157, R305) -/

/-- A byte of the padded stream is a matter of the message byte at its own index, and of that below the length only. -/
theorem paddedByte_congr_at {len : Word} {m m' : Nat → Byte} {i : Nat} (h : i < len.toNat → m i = m' i) :
    paddedByte len m i = paddedByte len m' i := by
  unfold paddedByte
  split
  · next hi => exact h hi
  · rfl

theorem messageOf_of_memReadMsg {s : State} {i : Nat} {b : Byte} (h : memReadMsg s i = some b) :
    messageOf s.powerOn s.MSG i = b := by
  unfold memReadMsg at h
  split at h
  · exact Option.some.inj h
  · cases h

/-- FRAME's block is what its reads give, where they are admitted. -/
theorem framedBlock_congr {s t : State} (hL : t.L = s.L) (hN : t.N = s.N) (hadm : readsAdmitted s)
    (hread : ∀ i ∈ readsOfBlock s.L.toNat s.N.toNat, memReadMsg t i = memReadMsg s i) :
    framedBlock t = framedBlock s := by
  refine vector64_ext fun j => ?_
  unfold framedBlock
  rw [hL, hN, sel64_paddedBlock, sel64_paddedBlock]
  refine paddedByte_congr_at fun hi => ?_
  have hmem : 64 * s.N.toNat + j.toNat ∈ readsOfBlock s.L.toNat s.N.toNat :=
    (mem_readsOfBlock _ _ _).mpr ⟨by omega, by omega, hi⟩
  obtain ⟨b, hb⟩ := Option.isSome_iff_exists.mp (hadm _ hmem)
  rw [messageOf_of_memReadMsg hb, messageOf_of_memReadMsg ((hread _ hmem).trans hb)]

/-- Where FRAME goes on, it goes on the same from every state with the same length, counter and reads. -/
theorem execFrame_next_congr {s t u : State} (hL : t.L = s.L) (hN : t.N = s.N)
    (hread : ∀ i ∈ readsOfBlock s.L.toNat s.N.toNat, memReadMsg t i = memReadMsg s i) (h : execFrame s = .next u) :
    execFrame t = .next { t with BLOCK := u.BLOCK, SEQ := u.SEQ } := by
  obtain ⟨hlt, hadm, rfl⟩ := execFrame_next h
  have hadm' : frameAdmitted t = true := (frameAdmitted_iff t).mpr fun i hi => by
    rw [hL, hN] at hi
    rw [hread i hi]
    exact hadm i hi
  rw [execFrame, hL, hN, if_neg (Nat.not_le.mpr hlt), if_pos hadm', framedBlock_congr hL hN hadm hread]
  rfl

/-- Settles O22: every index FRAME reads lies below `L`, and FRAME goes by those reads. -/
theorem frameIgnoresBytesAboveLength : Obligations.FrameIgnoresBytesAboveLength := by
  unfold Obligations.FrameIgnoresBytesAboveLength
  intro s t m b p hread h
  have hcongr := execFrame_next_congr (s := s) (t := { s with MSG := m, msgBinding := b, powerOn := p }) rfl rfl
    (fun i hi => hread i ((mem_readsOfBlock _ _ _).mp hi).2.2) h
  obtain ⟨-, -, rfl⟩ := execFrame_next h
  exact hcongr

/-! ## A host store to the message (R243, R300 to R303) -/

section HostStore

variable {s : State} {i : BitVec 32} {k : Nat} (b : Byte)

/-- A digest index at the platform address of message index `i` is stored into as by a digest store (log 9). -/
theorem hostStoreMsg_at_shared (hk : k < 32) (hs : sharesByte s i.toNat k = true) :
    Memory.lookup (hostStoreMsg i b s).DIG k = some b ∧ (hostStoreMsg i b s).digTaint.getLsbD k = s.BUSY := by
  rw [lookup_hostStoreMsg, getLsbD_hostStoreMsg i b s hk, if_pos ⟨hk, hs⟩, if_pos hs]
  exact ⟨rfl, rfl⟩

/-- Elsewhere a mark is set by a breach of R301 only: a store below `L` while the core is busy (log 8). -/
theorem hostStoreMsg_at_unshared (hs : ¬(k < 32 ∧ sharesByte s i.toNat k = true)) :
    Memory.lookup (hostStoreMsg i b s).DIG k = Memory.lookup s.DIG k ∧
      (hostStoreMsg i b s).digTaint.getLsbD k =
        (decide (k < 32) && s.BUSY && decide (i.toNat < s.L.toNat) || s.digTaint.getLsbD k) := by
  refine ⟨by rw [lookup_hostStoreMsg, if_neg hs], ?_⟩
  by_cases hk : k < 32
  · rw [getLsbD_hostStoreMsg i b s hk, if_neg fun h => hs ⟨hk, h⟩, decide_eq_true hk, Bool.true_and]
  · simp [hk, BitVec.getLsbD_of_ge _ _ (Nat.le_of_not_lt hk)]

end HostStore

/-- Settles O46: MSG is written at `i`; digest bytes and marks change where the platform byte is shared, and a breach of
R301 sets every mark. -/
theorem hostMessageStore : Obligations.HostMessageStore := by
  unfold Obligations.HostMessageStore
  intro s i b rest ht
  let s' : State := { s with turns := rest }
  refine ⟨Memory.write s.MSG i.toNat b, (hostStoreMsg i b s').DIG, (hostStoreMsg i b s').digTaint, ?step,
    lookup_write_same _ _ _, fun k hk => lookup_write_other _ b hk.symm, fun k a hk hi hd => ?shared,
    fun k hfar => ?unshared, fun k => ?admitted, fun hp => ?readBack⟩
  case step => rw [step_of_turns_storeMsg ht, hostStoreMsg_eq]
  case shared => exact hostStoreMsg_at_shared b hk ((sharesByte_iff s' _ _).mpr ⟨a, hi, hd⟩)
  case unshared =>
    have hs : ¬(k < 32 ∧ sharesByte s' i.toNat k = true) := by
      rintro ⟨hk, h⟩
      obtain ⟨a, hi, hd⟩ := (sharesByte_iff s' _ _).mp h
      exact hfar a hk hi hd
    obtain ⟨hdig, hmark⟩ := hostStoreMsg_at_unshared b hs
    refine ⟨hdig, fun hB hL hk => ?_, fun h => ?_⟩ <;> rw [hmark]
    · simp [s', hB, hL, hk]
    · rcases h with hB | hL
      · simp [s', hB]
      · simp [s', Nat.not_lt.mpr hL]
  case admitted => rw [isSome_memReadMsg, isSome_memReadMsg]
  case readBack =>
    rw [memReadMsg_eq_some (s := { s with MSG := Memory.write s.MSG i.toNat b }) hp]
    simp [messageOf]

end Sys2Proof.Machine

/-! PROOFS. State (spec file 10): who writes which register, what every step keeps, and that the digest is a matter of
the message alone. -/

namespace Sys2Proof.Machine

/-! ## The reset state (R39) -/

/-- Settles O49: the four values stand in the definition of the reset state. -/
theorem resetValues : Obligations.ResetValues := ⟨rfl, rfl, rfl, rfl⟩

/-- Settles O50: the first two invariants are decided on the concrete state; at IDLE the third asks nothing. -/
theorem resetMeetsInvariants : Obligations.ResetMeetsInvariants :=
  ⟨by decide, wf_reset, fun _ => trivial⟩

/-! ## What an operation writes (R20) -/

section Exec

variable {i : Instr} {s t : State}

/-- No operation touches what lies outside the core: the message space, the bindings, the list of turns. -/
theorem exec_keeps_environment (h : exec i s = .next t) :
    t.MSG = s.MSG ∧ t.powerOn = s.powerOn ∧ t.msgBinding = s.msgBinding ∧ t.digBinding = s.digBinding ∧
      t.regBinding = s.regBinding ∧ t.turns = s.turns := by
  cases i
  case frame => obtain ⟨-, -, rfl⟩ := execFrame_next h; simp
  case expw k => obtain ⟨-, rfl⟩ := execExpw_next h; simp
  case fold => obtain ⟨-, rfl⟩ := execFold_next h; simp
  case wrctrl d => rcases execWrctrl_next h with ⟨-, -, -, rfl⟩ | ⟨-, rfl⟩ <;> simp
  all_goals cases h; simp

/-- The writer column of R20's table, register by register. -/
theorem exec_writers (h : exec i s = .next t) :
    (i ≠ .seed → i ≠ .fold → t.H = s.H ∧ t.N = s.N) ∧
    (i ≠ .initv → (∀ k, i ≠ .round k) → t.v = s.v) ∧
    ((∀ k, i ≠ .loadw k) → (∀ k, i ≠ .expw k) → t.W = s.W) ∧
    (i ≠ .frame → t.BLOCK = s.BLOCK) ∧
    ((∀ d, i ≠ .wrctrl d) → t.L = s.L) ∧
    ((∀ d, i ≠ .wrlen d) → t.LEN = s.LEN) ∧
    (i ≠ .finish → (∀ d, i ≠ .wrctrl d) → t.BUSY = s.BUSY ∧ t.DONE = s.DONE) ∧
    ((∀ k, i ≠ .serw k) → t.DIG = s.DIG) := by
  cases i
  case frame => obtain ⟨-, -, rfl⟩ := execFrame_next h; simp
  case expw k => obtain ⟨-, rfl⟩ := execExpw_next h; simp
  case fold => obtain ⟨-, rfl⟩ := execFold_next h; simp
  case wrctrl d => rcases execWrctrl_next h with ⟨-, -, -, rfl⟩ | ⟨-, rfl⟩ <;> simp
  all_goals cases h; simp

/-- While the core is busy no operation changes the latched length: a START is not accepted then (R239). -/
theorem exec_keeps_L_of_busy (h : exec i s = .next t) (hB : s.BUSY = true) : t.L = s.L := by
  by_cases hi : ∃ d, i = .wrctrl d
  · obtain ⟨d, rfl⟩ := hi
    rcases execWrctrl_next h with ⟨-, hidle, -⟩ | ⟨-, rfl⟩
    · rw [hB] at hidle; cases hidle
    · rfl
  · obtain ⟨-, -, -, -, hL, -⟩ := exec_writers h
    exact hL fun d e => hi ⟨d, e⟩

/-- An operation leaves the flags, or is FINISH, or is an accepted START. -/
theorem exec_flags (h : exec i s = .next t) :
    (t.BUSY = s.BUSY ∧ t.DONE = s.DONE) ∨ (i = .finish ∧ t.BUSY = false ∧ t.DONE = true ∧ t.SEQ = ⟨0, 0⟩) ∨
      ∃ d, i = .wrctrl d ∧ startBit d = true ∧ s.BUSY = false ∧ t = acceptStart s := by
  by_cases hf : i = .finish
  · subst hf
    cases h
    exact .inr (.inl ⟨rfl, rfl, rfl, rfl⟩)
  by_cases hw : ∃ d, i = .wrctrl d
  · obtain ⟨d, rfl⟩ := hw
    rcases execWrctrl_next h with ⟨hd, hidle, -, rfl⟩ | ⟨-, rfl⟩
    · exact .inr (.inr ⟨d, rfl, hd, hidle, rfl⟩)
    · exact .inl ⟨rfl, rfl⟩
  · obtain ⟨-, -, -, -, -, -, hflags, -⟩ := exec_writers h
    exact .inl (hflags hf fun d e => hw ⟨d, e⟩)

/-- SERW alone writes the digest space, at indices of the space. -/
theorem exec_keeps_memoryWf (hwf : memoryWf s) (h : exec i s = .next t) : memoryWf t := by
  obtain ⟨hM, -⟩ := exec_keeps_environment h
  refine ⟨hM ▸ hwf.1, ?_⟩
  by_cases hi : ∃ k, i = .serw k
  · obtain ⟨k, rfl⟩ := hi
    cases h
    exact wf_write _ _ (digestIndex k 3).isLt (wf_write _ _ (digestIndex k 2).isLt
      (wf_write _ _ (digestIndex k 1).isLt (wf_write _ _ (digestIndex k 0).isLt hwf.2)))
  · obtain ⟨-, -, -, -, -, -, -, hDIG⟩ := exec_writers h
    rw [hDIG fun k e => hi ⟨k, e⟩]
    exact hwf.2

end Exec

/-- The START bit is the parity of the value written (R25). -/
theorem startBit_iff (d : Word) : startBit d = true ↔ d.toNat % 2 = 1 := by
  simp [startBit, BitVec.getLsbD, Nat.testBit_zero]

theorem seq_of_decodeSeq_finish {q : Seq} (h : decodeSeq q = .ok .finish) : q = ⟨9, 0⟩ := by
  simpa using decodeSeq_ok h

/-- A sequencer position names no register access (R90). -/
theorem ne_hostAccess_of_decodeSeq {q : Seq} {i j : Instr} (h : decodeSeq q = .ok i) (hj : isHostAccess j = true) :
    i ≠ j := by
  rintro rfl
  rcases decodeSeq_ok h with ⟨-, rfl⟩ | ⟨-, rfl⟩ | ⟨-, rfl⟩ | ⟨_, -, rfl⟩ | ⟨_, -, -, rfl⟩ | ⟨-, rfl⟩ | ⟨_, -, rfl⟩ |
    ⟨-, rfl⟩ | ⟨_, -, rfl⟩ | ⟨-, rfl⟩ <;> cases hj

section Step

variable {s t : State}

/-- Settles O51: `exec` by its writer table; of the other turns none touches a binding. -/
theorem registerWriters : Obligations.RegisterWriters := by
  unfold Obligations.RegisterWriters
  refine ⟨fun s t h => ?bindings, fun i s t h => ?writers⟩
  case bindings =>
    rcases step_next h with ⟨rest, i, -, -, he⟩ | ⟨i, turn, rest, -, -, he⟩ | ⟨turn, rest, -, rfl⟩ |
      ⟨i, b, rest, -, rfl⟩ | ⟨j, rest, -, rfl⟩ | ⟨j, b, rest, -, rfl⟩ | ⟨rest, -, rfl⟩
    · obtain ⟨-, -, hm, hd, hr, -⟩ := exec_keeps_environment he
      exact ⟨hm, hd, hr⟩
    · obtain ⟨-, -, hm, hd, hr, -⟩ := exec_keeps_environment he
      exact ⟨hm, hd, hr⟩
    all_goals simp
  case writers =>
    obtain ⟨hM, -⟩ := exec_keeps_environment h
    obtain ⟨hHN, hv, hW, hBLOCK, hL, hLEN, hflags, hDIG⟩ := exec_writers h
    exact ⟨hHN, hv, hW, hBLOCK, hL, hLEN, hflags, hDIG, hM⟩

/-- Settles O52: a START while busy is not accepted, and the reset lowers BUSY. -/
theorem latchedLengthIsFixedWhileBusy : Obligations.LatchedLengthIsFixedWhileBusy := by
  unfold Obligations.LatchedLengthIsFixedWhileBusy
  intro s t h hB hB'
  rcases step_next h with ⟨rest, i, -, -, he⟩ | ⟨i, turn, rest, -, -, he⟩ | ⟨turn, rest, -, rfl⟩ |
    ⟨i, b, rest, -, rfl⟩ | ⟨j, rest, -, rfl⟩ | ⟨j, b, rest, -, rfl⟩ | ⟨rest, -, rfl⟩
  · exact exec_keeps_L_of_busy (s := { s with turns := rest }) he hB
  · exact exec_keeps_L_of_busy (s := { s with turns := rest }) he hB
  · rfl
  · simp
  · simp
  · simp
  · simp at hB'

/-- What a step can do to the flags (R24): nothing, FINISH, an accepted START, or the reset. -/
theorem step_flags (h : step s = .next t) :
    (t.BUSY = s.BUSY ∧ t.DONE = s.DONE) ∨
      (s.SEQ = ⟨9, 0⟩ ∧ t.BUSY = false ∧ t.DONE = true ∧ t.SEQ = ⟨0, 0⟩) ∨
      (s.BUSY = false ∧ ∃ turn rest d, s.turns = turn :: rest ∧ d.toNat % 2 = 1 ∧
        exec (.wrctrl d) { s with turns := rest } = .next t ∧ t = acceptStart { s with turns := rest }) ∨
      ((∃ rest, s.turns = .reset :: rest) ∧ t.BUSY = false ∧ t.DONE = false) := by
  rcases step_next h with ⟨rest, i, -, hd, he⟩ | ⟨i, turn, rest, hs, hi, he⟩ | ⟨turn, rest, -, rfl⟩ |
    ⟨i, b, rest, -, rfl⟩ | ⟨j, rest, -, rfl⟩ | ⟨j, b, rest, -, rfl⟩ | ⟨rest, hs, rfl⟩
  · rcases exec_flags he with hsame | ⟨rfl, hfin⟩ | ⟨d, rfl, -⟩
    · exact .inl hsame
    · exact .inr (.inl ⟨seq_of_decodeSeq_finish hd, hfin⟩)
    · exact absurd rfl (ne_hostAccess_of_decodeSeq hd rfl)
  · rcases exec_flags he with hsame | ⟨rfl, -⟩ | ⟨d, rfl, hbit, hidle, ht⟩
    · exact .inl hsame
    · cases hi
    · exact .inr (.inr (.inl ⟨hidle, turn, rest, d, hs, (startBit_iff d).mp hbit, he, ht⟩))
  · exact .inl ⟨rfl, rfl⟩
  · exact .inl (by simp)
  · exact .inl (by simp)
  · exact .inl (by simp)
  · exact .inr (.inr (.inr ⟨⟨rest, hs⟩, rfl, rfl⟩))

/-- Settles O53: of the four things a step can do to the flags, each clause leaves the one or two that change them its
way. -/
theorem flagsChangeOnlyAtStartFinishReset : Obligations.FlagsChangeOnlyAtStartFinishReset := by
  unfold Obligations.FlagsChangeOnlyAtStartFinishReset
  intro s t h
  rcases step_flags h with ⟨hB, hD⟩ | ⟨hfin, hB, hD, hq⟩ | ⟨hidle, turn, rest, d, hs, hd, he, rfl⟩ | ⟨hreset, hB, hD⟩
  · simp_all
  · simp [hfin, hB, hD, hq]
  · exact ⟨by simp, by simp, fun _ _ => ⟨rfl, rfl, rfl, turn, rest, d, hs, hd, he⟩, fun _ _ => .inl ⟨hidle, rfl⟩⟩
  · simp [hreset, hB, hD]

/-- Settles O55: the host stores within the two spaces, and so does SERW. -/
theorem stepKeepsMemoryForm : Obligations.StepKeepsMemoryForm := by
  unfold Obligations.StepKeepsMemoryForm
  intro s t hwf h
  rcases step_next h with ⟨rest, i, -, -, he⟩ | ⟨i, turn, rest, -, -, he⟩ | ⟨turn, rest, -, rfl⟩ |
    ⟨i, b, rest, -, rfl⟩ | ⟨j, rest, -, rfl⟩ | ⟨j, b, rest, -, rfl⟩ | ⟨rest, -, rfl⟩
  · exact exec_keeps_memoryWf (s := { s with turns := rest }) hwf he
  · exact exec_keeps_memoryWf (s := { s with turns := rest }) hwf he
  · exact hwf
  · rw [memoryWf, hostStoreMsg_MSG]
    exact ⟨wf_write b _ i.isLt hwf.1, wf_hostStoreMsg i b _ hwf.2⟩
  · simpa [memoryWf] using hwf
  · exact ⟨hwf.1, wf_write b _ j.isLt hwf.2⟩
  · exact hwf

end Step

/-! ## The sequencer invariants, position by position (R24, R225) -/

/-- A legal position from FRAME to FOLD. -/
abbrev inBlock (q : Seq) : Prop := q.uop ∈ [2, 3, 4, 5, 6, 7] ∧ legalSeq q

/-- A legal position of SERW or FINISH. -/
abbrev inOutput (q : Seq) : Prop := q.uop ∈ [8, 9] ∧ legalSeq q

theorem uop_inBlock {u : BitVec 4} (h : u ∈ [2, 3, 4, 5, 6, 7]) : u ≠ 0 ∧ u ∉ [8, 9] := by
  revert u; decide

theorem uop_inOutput {u : BitVec 4} (h : u ∈ [8, 9]) : u ≠ 0 ∧ u ∉ [2, 3, 4, 5, 6, 7] := by
  revert u; decide

/-! The successors of R221, in the form in which `coreTurn_cases` gives them, and where in the trace they stand. -/

/-- The position after LOADW `k`. -/
abbrev loadwNext (k : BitVec 4) : Seq := if k = 15 then ⟨4, 16⟩ else ⟨3, BitVec.ofNat 6 (k.toNat + 1)⟩

/-- The position after EXPW `k`. -/
abbrev expwNext (k : BitVec 6) : Seq := if k = 63 then ⟨5, 0⟩ else ⟨4, BitVec.ofNat 6 (k.toNat + 1)⟩

/-- The position after ROUND `k`. -/
abbrev roundNext (k : BitVec 6) : Seq := if k = 63 then ⟨7, 0⟩ else ⟨6, BitVec.ofNat 6 (k.toNat + 1)⟩

/-- The position after SERW `k`. -/
abbrev serwNext (k : BitVec 3) : Seq := if k = 7 then ⟨9, 0⟩ else ⟨8, BitVec.ofNat 6 (k.toNat + 1)⟩

theorem inBlock_loadwNext : ∀ k : BitVec 4, inBlock (loadwNext k) := by decide

theorem inBlock_expwNext : ∀ k : BitVec 6, 16 ≤ k.toNat → inBlock (expwNext k) := by decide

theorem inBlock_roundNext : ∀ k : BitVec 6, inBlock (roundNext k) := by decide

theorem inOutput_serwNext : ∀ k : BitVec 3, inOutput (serwNext k) := by decide

theorem blockCount_pos (len : Nat) : 0 < blockCount len := by
  rw [blockCount_eq]
  exact Nat.succ_pos _

section SequencerInv

variable {s t : State}

theorem sequencerInv_iff_of_idle (hq : s.SEQ = ⟨0, 0⟩) : sequencerInv s ↔ s.BUSY = false := by
  simp +contextual [sequencerInv, legalSeq, busyMatches, flagsExclusive, counterInRange, hq]

/-- Off IDLE the two clauses about the flags say BUSY = 1 and DONE = 0. -/
theorem sequencerInv_iff_of_ne_idle (h0 : s.SEQ.uop ≠ 0) :
    sequencerInv s ↔ legalSeq s.SEQ ∧ s.BUSY = true ∧ s.DONE = false ∧ counterInRange s := by
  constructor
  · rintro ⟨hlegal, hbusy, hflags, hN⟩
    have hB := hbusy.mpr h0
    exact ⟨hlegal, hB, by simpa [hB] using hflags, hN⟩
  · rintro ⟨hlegal, hB, hD, hN⟩
    exact ⟨hlegal, iff_of_true hB h0, by simp [hD], hN⟩

theorem sequencerInv_iff_of_seed (hq : s.SEQ = ⟨1, 0⟩) : sequencerInv s ↔ s.BUSY = true ∧ s.DONE = false := by
  rw [sequencerInv_iff_of_ne_idle (by simp [hq])]
  simp [legalSeq, counterInRange, hq]

theorem sequencerInv_iff_of_inBlock (hq : inBlock s.SEQ) :
    sequencerInv s ↔ s.BUSY = true ∧ s.DONE = false ∧ s.N.toNat < blockCount s.L.toNat := by
  obtain ⟨h0, h8⟩ := uop_inBlock hq.1
  simp only [sequencerInv_iff_of_ne_idle h0, counterInRange, hq, h8, true_and, forall_const, false_imp_iff, and_true]

theorem sequencerInv_iff_of_inOutput (hq : inOutput s.SEQ) :
    sequencerInv s ↔ s.BUSY = true ∧ s.DONE = false ∧ s.N.toNat = blockCount s.L.toNat := by
  obtain ⟨h0, h7⟩ := uop_inOutput hq.1
  simp only [sequencerInv_iff_of_ne_idle h0, counterInRange, hq, h7, true_and, forall_const, false_imp_iff]

/-- The invariants are a matter of five registers. -/
theorem sequencerInv_congr (hq : t.SEQ = s.SEQ) (hB : t.BUSY = s.BUSY) (hD : t.DONE = s.DONE) (hN : t.N = s.N)
    (hL : t.L = s.L) : sequencerInv t ↔ sequencerInv s := by
  simp only [sequencerInv, legalSeq, busyMatches, flagsExclusive, counterInRange, hq, hB, hD, hN, hL]

/-- An operation that moves the sequencer within a block and leaves flags, counter and length keeps the invariants. -/
theorem sequencerInv_of_inBlock (hinv : sequencerInv s) (hs : inBlock s.SEQ) (ht : inBlock t.SEQ)
    (hB : t.BUSY = s.BUSY) (hD : t.DONE = s.DONE) (hN : t.N = s.N) (hL : t.L = s.L) : sequencerInv t := by
  rw [sequencerInv_iff_of_inBlock hs] at hinv
  rwa [sequencerInv_iff_of_inBlock ht, hB, hD, hN, hL]

theorem coreTurn_keeps_sequencerInv {i : Instr} (hinv : sequencerInv s) (hd : decodeSeq s.SEQ = .ok i)
    (h : exec i s = .next t) : sequencerInv t := by
  have hlegal : legalSeq s.SEQ := hinv.1
  rcases coreTurn_cases hd h with ⟨-, rfl⟩ | ⟨hq, rfl⟩ | ⟨hq, -, -, rfl⟩ | ⟨k, hq, rfl⟩ | ⟨k, hk, hq, rfl⟩ | ⟨hq, rfl⟩ |
    ⟨k, hq, rfl⟩ | ⟨hq, hlt, rfl⟩ | ⟨k, hq, rfl⟩ | ⟨hq, rfl⟩
  · exact hinv
  · obtain ⟨hB, hD⟩ := (sequencerInv_iff_of_seed hq).mp hinv
    exact (sequencerInv_iff_of_inBlock (show inBlock ⟨2, 0⟩ by decide)).mpr ⟨hB, hD, blockCount_pos _⟩
  · exact sequencerInv_of_inBlock hinv ⟨by simp [hq], hlegal⟩ (show inBlock ⟨3, 0⟩ by decide) rfl rfl rfl rfl
  · exact sequencerInv_of_inBlock hinv ⟨by simp [hq], hlegal⟩ (inBlock_loadwNext k) rfl rfl rfl rfl
  · exact sequencerInv_of_inBlock hinv ⟨by simp [hq], hlegal⟩ (inBlock_expwNext k hk) rfl rfl rfl rfl
  · exact sequencerInv_of_inBlock hinv ⟨by simp [hq], hlegal⟩ (show inBlock ⟨6, 0⟩ by decide) rfl rfl rfl rfl
  · exact sequencerInv_of_inBlock hinv ⟨by simp [hq], hlegal⟩ (inBlock_roundNext k) rfl rfl rfl rfl
  · have hnext := counter_succ_toNat s hlt
    obtain ⟨hB, hD, -⟩ := (sequencerInv_iff_of_inBlock ⟨by simp [hq], hlegal⟩).mp hinv
    split
    · next hmore =>
      exact (sequencerInv_iff_of_inBlock (show inBlock ⟨2, 0⟩ by decide)).mpr ⟨hB, hD, hnext.trans_lt hmore⟩
    · next hlast =>
      exact (sequencerInv_iff_of_inOutput (show inOutput ⟨8, 0⟩ by decide)).mpr ⟨hB, hD, by simp only; omega⟩
  · have hout := (sequencerInv_iff_of_inOutput ⟨by simp [hq], hlegal⟩).mp hinv
    exact (sequencerInv_iff_of_inOutput (inOutput_serwNext k)).mpr hout
  · exact (sequencerInv_iff_of_idle rfl).mpr rfl

/-- Settles O54: the core's turns position by position; a START is accepted at IDLE only, and the other turns leave the
five registers or reset them. -/
theorem stepKeepsSequencerInvariants : Obligations.StepKeepsSequencerInvariants := by
  unfold Obligations.StepKeepsSequencerInvariants
  intro s t hinv h
  rcases step_next h with ⟨rest, i, -, hd, he⟩ | ⟨i, turn, rest, -, hi, he⟩ | ⟨turn, rest, -, rfl⟩ |
    ⟨i, b, rest, -, rfl⟩ | ⟨j, rest, -, rfl⟩ | ⟨j, b, rest, -, rfl⟩ | ⟨rest, -, rfl⟩
  · exact coreTurn_keeps_sequencerInv (s := { s with turns := rest }) hinv hd he
  · rcases hostAccess_cases hi he with ⟨-, -, rfl⟩ | ⟨x, y, rfl⟩
    · exact (sequencerInv_iff_of_seed rfl).mpr ⟨rfl, rfl⟩
    · exact hinv
  · exact hinv
  · exact (sequencerInv_congr (by simp) (by simp) (by simp) (by simp) (by simp)).mpr hinv
  · exact (sequencerInv_congr (by simp) (by simp) (by simp) (by simp) (by simp)).mpr hinv
  · exact hinv
  · exact (sequencerInv_iff_of_idle rfl).mpr rfl

end SequencerInv

/-! ## The schedule's recurrence (R183) and the serializer's bytes (R232, R233) -/

/-- The sum EXPW forms is a matter of the entries below its index (R182). -/
theorem expandWord_congr {w x : Vector Word 64} {t : BitVec 6} (h16 : 16 ≤ t.toNat)
    (h : ∀ i : BitVec 6, i.toNat < t.toNat → sel64 w i = sel64 x i) : expandWord w t = expandWord x t := by
  unfold expandWord
  rw [h (t - 16) (by bv_omega), h (t - 15) (by bv_omega), h (t - 7) (by bv_omega), h (t - 2) (by bv_omega)]

theorem sel64_schedule_load (block : Vector Byte 64) (k : BitVec 4) :
    sel64 (schedule block) (k.setWidth 6) = loadWord block k := by
  have hk : (k.setWidth 6).toNat = k.toNat := by simp; omega
  rw [sel64_schedule, scheduleEntry, hk, if_pos k.isLt, BitVec.ofNat_toNat, BitVec.setWidth_eq]

theorem sel64_schedule_expand (block : Vector Byte 64) {t : BitVec 6} (h16 : 16 ≤ t.toNat) :
    sel64 (schedule block) t = expandWord (schedule block) t := by
  rw [sel64_schedule, scheduleEntry, if_neg (Nat.not_lt.mpr h16), BitVec.ofNat_toNat, BitVec.setWidth_eq]
  refine expandWord_congr h16 fun i hi => ?_
  rw [schedule, sel64_schedulePrefix_of_lt block hi t.isLt.le, sel64_schedulePrefix_of_lt block i.isLt le_rfl]

/-- An array that agrees with `x` below `t` agrees up to `t` once it holds `x`'s entry there. -/
theorem sel64_upd64_agree {w x : Vector Word 64} {t : BitVec 6}
    (h : ∀ i : BitVec 6, i.toNat < t.toNat → sel64 w i = sel64 x i) (i : BitVec 6) (hi : i.toNat < t.toNat + 1) :
    sel64 (upd64 w t (sel64 x t)) i = sel64 x i := by
  by_cases e : t = i
  · rw [e, sel64_upd64_same]
  · rw [sel64_upd64_other w _ e]
    exact h i (by bv_omega)

/-- LOADW's write carries agreement with the schedule one entry on. -/
theorem sel64_upd64_loadWord {w : Vector Word 64} {block : Vector Byte 64} {k : BitVec 4}
    (h : ∀ i : BitVec 6, i.toNat < (k.setWidth 6).toNat → sel64 w i = sel64 (schedule block) i) (i : BitVec 6)
    (hi : i.toNat < (k.setWidth 6).toNat + 1) :
    sel64 (upd64 w (k.setWidth 6) (loadWord block k)) i = sel64 (schedule block) i := by
  rw [← sel64_schedule_load]
  exact sel64_upd64_agree h i hi

/-- EXPW's write carries agreement with the schedule one entry on. -/
theorem sel64_upd64_expandWord {w : Vector Word 64} {block : Vector Byte 64} {t : BitVec 6} (h16 : 16 ≤ t.toNat)
    (h : ∀ i : BitVec 6, i.toNat < t.toNat → sel64 w i = sel64 (schedule block) i) (i : BitVec 6)
    (hi : i.toNat < t.toNat + 1) :
    sel64 (upd64 w t (expandWord w t)) i = sel64 (schedule block) i := by
  rw [expandWord_congr h16 h, ← sel64_schedule_expand _ h16]
  exact sel64_upd64_agree h i hi

/-- ROUND `t` on the schedule word of its index is one round more (R206). -/
theorem rnd_roundsFrom {w x : Vector Word 64} (v : Vars) {t : BitVec 6} (h : sel64 x t = sel64 w t) :
    rnd (roundsFrom w v t.toNat) (sel64 K t) (sel64 x t) = roundsFrom w v (t.toNat + 1) := by
  rw [roundsFrom, BitVec.ofNat_toNat, BitVec.setWidth_eq, h]

/-- SERW `i` puts the serialized hash state at the four indices of word `i` and leaves the others. -/
theorem lookup_serializeWord_eq_serialByte (i : BitVec 3) (s : State) (j : BitVec 5) :
    Memory.lookup (serializeWord i s).DIG j.toNat =
      if j.toNat / 4 = i.toNat then some (serialByte s.H j) else Memory.lookup s.DIG j.toNat := by
  have hword : (j.extractLsb' 2 3).toNat = j.toNat / 4 := by revert j; decide
  have hbyte : (j.extractLsb' 0 2).toNat = j.toNat % 4 := by revert j; decide
  rw [lookup_serializeWord]
  by_cases hi : j.toNat / 4 = i.toNat
  · have hk : ∀ k : BitVec 2, j.toNat % 4 = k.toNat → serialByte s.H j = byteOf (sel8 s.H i) k := fun k e => by
      rw [serialByte, BitVec.eq_of_toNat_eq (hword.trans hi), BitVec.eq_of_toNat_eq (hbyte.trans e)]
    rw [if_pos hi]
    split_ifs with h0 h1 h2 h3
    · rw [hk 0 (by simp; omega)]
    · rw [hk 1 (by simp; omega)]
    · rw [hk 2 (by simp; omega)]
    · rw [hk 3 (by simp; omega)]
    · omega
  · rw [if_neg hi, if_neg (by omega), if_neg (by omega), if_neg (by omega), if_neg (by omega)]

/-- SERW `k`'s four writes carry the digest of the final hash state four bytes on. -/
theorem digestUpTo_serializeWord {s : State} {k : BitVec 3} (hH : s.H = finalHash s.L (message s))
    (h : digestUpTo s (4 * k.toNat)) : digestUpTo (serializeWord k s) (4 * (k.toNat + 1)) := by
  intro j hj hm
  rw [lookup_serializeWord_eq_serialByte]
  split
  · rw [hH]; rfl
  · exact h j (by omega) hm

/-! ## The functional invariant, position by position (R225 (5)) -/

section TracksFunction

variable {s t : State}

theorem tracksFunction_iff_of_frame (hq : s.SEQ.uop = 2) :
    tracksFunction s ↔ (s.digTaint ≠ BitVec.allOnes 32 → s.H = hashAfter s.L (message s) s.N.toNat) := by
  rw [tracksFunction, hq]; rfl

theorem tracksFunction_iff_of_schedule (hq : s.SEQ.uop = 3 ∨ s.SEQ.uop = 4) :
    tracksFunction s ↔ (s.digTaint ≠ BitVec.allOnes 32 →
      s.H = hashAfter s.L (message s) s.N.toNat ∧ s.BLOCK = currentBlock s ∧ scheduleUpTo s s.SEQ.idx.toNat) := by
  rcases hq with hq | hq <;> rw [tracksFunction, hq] <;> rfl

theorem tracksFunction_iff_of_initv (hq : s.SEQ.uop = 5) :
    tracksFunction s ↔ (s.digTaint ≠ BitVec.allOnes 32 →
      s.H = hashAfter s.L (message s) s.N.toNat ∧ scheduleUpTo s 64) := by
  rw [tracksFunction, hq]; rfl

theorem tracksFunction_iff_of_round (hq : s.SEQ.uop = 6) :
    tracksFunction s ↔ (s.digTaint ≠ BitVec.allOnes 32 →
      s.H = hashAfter s.L (message s) s.N.toNat ∧ scheduleUpTo s 64 ∧
        s.v = roundsFrom (schedule (currentBlock s)) (varsOfVector s.H) s.SEQ.idx.toNat) := by
  rw [tracksFunction, hq]; rfl

theorem tracksFunction_iff_of_fold (hq : s.SEQ.uop = 7) :
    tracksFunction s ↔ (s.digTaint ≠ BitVec.allOnes 32 →
      s.H = hashAfter s.L (message s) s.N.toNat ∧
        s.v = roundsFrom (schedule (currentBlock s)) (varsOfVector s.H) 64) := by
  rw [tracksFunction, hq]; rfl

theorem tracksFunction_iff_of_serw (hq : s.SEQ.uop = 8) :
    tracksFunction s ↔ (s.digTaint ≠ BitVec.allOnes 32 →
      s.H = finalHash s.L (message s) ∧ digestUpTo s (4 * s.SEQ.idx.toNat)) := by
  rw [tracksFunction, hq]; rfl

theorem tracksFunction_iff_of_finish (hq : s.SEQ.uop = 9) :
    tracksFunction s ↔ (s.digTaint ≠ BitVec.allOnes 32 →
      s.H = finalHash s.L (message s) ∧ digestUpTo s 32) := by
  rw [tracksFunction, hq]; rfl

/-- After LOADW `k` comes the schedule operation of the next index, LOADW or EXPW (R221). -/
theorem loadwNext_schedule : ∀ k : BitVec 4,
    ((loadwNext k).uop = 3 ∨ (loadwNext k).uop = 4) ∧ (loadwNext k).idx.toNat = (k.setWidth 6).toNat + 1 := by
  decide

theorem expwNext_schedule : ∀ k : BitVec 6, k ≠ 63 → (expwNext k).uop = 4 ∧ (expwNext k).idx.toNat = k.toNat + 1 := by
  decide

theorem roundNext_round : ∀ k : BitVec 6, k ≠ 63 → (roundNext k).uop = 6 ∧ (roundNext k).idx.toNat = k.toNat + 1 := by
  decide

theorem serwNext_serw : ∀ k : BitVec 3, k ≠ 7 → (serwNext k).uop = 8 ∧ (serwNext k).idx.toNat = k.toNat + 1 := by
  decide

/-- A turn of the core leaves the latched length and the marks of breaches. -/
theorem coreTurn_keeps_L_digTaint {i : Instr} (hd : decodeSeq s.SEQ = .ok i) (h : exec i s = .next t) :
    t.L = s.L ∧ t.digTaint = s.digTaint := by
  rcases coreTurn_cases hd h with ⟨-, rfl⟩ | ⟨-, rfl⟩ | ⟨-, -, -, rfl⟩ | ⟨k, -, rfl⟩ | ⟨k, -, -, rfl⟩ | ⟨-, rfl⟩ |
    ⟨k, -, rfl⟩ | ⟨-, -, rfl⟩ | ⟨k, -, rfl⟩ | ⟨-, rfl⟩
  all_goals exact ⟨rfl, rfl⟩

section CoreTurn

variable (hfun : tracksFunction s) (hmsg : message t = message s) (hblock : t.N = s.N → currentBlock t = currentBlock s)
include hfun hmsg

theorem tracksFunction_after_fold (hq : s.SEQ = ⟨7, 0⟩) (hlt : s.N.toNat < blockCount s.L.toNat)
    (ht : t = { s with
      H := foldHash s.H s.v
      N := s.N + 1
      SEQ := if s.N.toNat + 1 < blockCount s.L.toNat then ⟨2, 0⟩ else ⟨8, 0⟩ }) : tracksFunction t := by
  subst ht
  have hnext (hm : s.digTaint ≠ BitVec.allOnes 32) :
      foldHash s.H s.v = hashAfter s.L (message s) (s.N.toNat + 1) := by
    obtain ⟨hH, hv⟩ := (tracksFunction_iff_of_fold (by simp [hq])).mp hfun hm
    rw [hv, hashAfter, compress, ← hH]
    rfl
  by_cases hmore : s.N.toNat + 1 < blockCount s.L.toNat
  · refine Iff.mpr (tracksFunction_iff_of_frame (by simp [hmore])) fun hm => ?_
    rw [hmsg, counter_succ_toNat s hlt]
    exact hnext hm
  · refine Iff.mpr (tracksFunction_iff_of_serw (by simp [hmore])) fun hm => ?_
    rw [hmsg, finalHash, show blockCount s.L.toNat = s.N.toNat + 1 by omega]
    exact ⟨hnext hm, fun j hj => absurd hj (by simp)⟩

theorem tracksFunction_after_serw {k : BitVec 3} (hq : s.SEQ = ⟨8, k.setWidth 6⟩)
    (ht : t = { s with
      DIG := (serializeWord k s).DIG
      SEQ := serwNext k }) : tracksFunction t := by
  subst ht
  have hnew (hm : s.digTaint ≠ BitVec.allOnes 32) :
      s.H = finalHash s.L (message s) ∧ digestUpTo (serializeWord k s) (4 * (k.toNat + 1)) := by
    obtain ⟨hH, hD⟩ := (tracksFunction_iff_of_serw (by simp [hq])).mp hfun hm
    rw [hq, BitVec.toNat_setWidth_of_le (by decide)] at hD
    exact ⟨hH, digestUpTo_serializeWord hH hD⟩
  by_cases hlast : k = 7
  · refine Iff.mpr (tracksFunction_iff_of_finish (by rw [hlast]; rfl)) fun hm => ?_
    rw [hmsg, digestUpTo, hmsg]
    subst hlast
    exact hnew hm
  · obtain ⟨huop, hidx⟩ := serwNext_serw k hlast
    refine Iff.mpr (tracksFunction_iff_of_serw huop) fun hm => ?_
    rw [hmsg, digestUpTo, hmsg, hidx]
    exact hnew hm

include hblock

theorem tracksFunction_after_loadw {k : BitVec 4} (hq : s.SEQ = ⟨3, k.setWidth 6⟩)
    (ht : t = { s with
      W := upd64 s.W (k.setWidth 6) (loadWord s.BLOCK k)
      SEQ := loadwNext k }) : tracksFunction t := by
  subst ht
  obtain ⟨huop, hidx⟩ := loadwNext_schedule k
  refine Iff.mpr (tracksFunction_iff_of_schedule huop) fun hm => ?_
  obtain ⟨hH, hB, hW⟩ := (tracksFunction_iff_of_schedule (by simp [hq])).mp hfun hm
  rw [hq] at hW
  rw [hmsg, hblock rfl, scheduleUpTo, hblock rfl, hidx, hB]
  exact ⟨hH, rfl, sel64_upd64_loadWord hW⟩

theorem tracksFunction_after_expw {k : BitVec 6} (hk : 16 ≤ k.toNat) (hq : s.SEQ = ⟨4, k⟩)
    (ht : t = { s with
      W := upd64 s.W k (expandWord s.W k)
      SEQ := expwNext k }) : tracksFunction t := by
  subst ht
  have hold := (tracksFunction_iff_of_schedule (by simp [hq])).mp hfun
  rw [hq] at hold
  by_cases hlast : k = 63
  · refine Iff.mpr (tracksFunction_iff_of_initv (by rw [hlast]; rfl)) fun hm => ?_
    obtain ⟨hH, -, hW⟩ := hold hm
    rw [hmsg, scheduleUpTo, hblock rfl]
    subst hlast
    exact ⟨hH, sel64_upd64_expandWord hk hW⟩
  · obtain ⟨huop, hidx⟩ := expwNext_schedule k hlast
    refine Iff.mpr (tracksFunction_iff_of_schedule (.inr huop)) fun hm => ?_
    obtain ⟨hH, hB, hW⟩ := hold hm
    rw [hmsg, hblock rfl, scheduleUpTo, hblock rfl, hidx]
    exact ⟨hH, hB, sel64_upd64_expandWord hk hW⟩

theorem tracksFunction_after_round {k : BitVec 6} (hq : s.SEQ = ⟨6, k⟩)
    (ht : t = { s with
      v := rnd s.v (sel64 K k) (sel64 s.W k)
      SEQ := roundNext k }) : tracksFunction t := by
  subst ht
  have hnew (hm : s.digTaint ≠ BitVec.allOnes 32) :
      s.H = hashAfter s.L (message s) s.N.toNat ∧ scheduleUpTo s 64 ∧
        rnd s.v (sel64 K k) (sel64 s.W k) =
          roundsFrom (schedule (currentBlock s)) (varsOfVector s.H) (k.toNat + 1) := by
    obtain ⟨hH, hW, hv⟩ := (tracksFunction_iff_of_round (by simp [hq])).mp hfun hm
    rw [hq] at hv
    exact ⟨hH, hW, by rw [hv, rnd_roundsFrom _ (hW k k.isLt)]⟩
  by_cases hlast : k = 63
  · refine Iff.mpr (tracksFunction_iff_of_fold (by rw [hlast]; rfl)) fun hm => ?_
    obtain ⟨hH, -, hv⟩ := hnew hm
    rw [hmsg, hblock rfl, hv]
    subst hlast
    exact ⟨hH, rfl⟩
  · obtain ⟨huop, hidx⟩ := roundNext_round k hlast
    refine Iff.mpr (tracksFunction_iff_of_round huop) fun hm => ?_
    rw [hmsg, hblock rfl, scheduleUpTo, hblock rfl, hidx]
    exact hnew hm

end CoreTurn

/-- The core's turns keep the hidden state in line with the function of R244. -/
theorem coreTurn_keeps_tracksFunction {i : Instr} (hfun : tracksFunction s) (hd : decodeSeq s.SEQ = .ok i)
    (h : exec i s = .next t) : tracksFunction t := by
  obtain ⟨hM, hP, -⟩ := exec_keeps_environment h
  obtain ⟨hL, -⟩ := coreTurn_keeps_L_digTaint hd h
  have hmsg : message t = message s := message_congr hP hM
  have hblock (hN : t.N = s.N) : currentBlock t = currentBlock s := currentBlock_congr hL hP hM hN
  rcases coreTurn_cases hd h with ⟨-, rfl⟩ | ⟨hq, rfl⟩ | ⟨hq, -, -, rfl⟩ | ⟨k, hq, ht⟩ | ⟨k, hk, hq, ht⟩ | ⟨hq, rfl⟩ |
    ⟨k, hq, ht⟩ | ⟨hq, hlt, ht⟩ | ⟨k, hq, ht⟩ | ⟨hq, rfl⟩
  · exact hfun
  · exact Iff.mpr (tracksFunction_iff_of_frame rfl) fun _ => rfl
  · refine Iff.mpr (tracksFunction_iff_of_schedule (.inl rfl)) fun hm => ?_
    have hH := (tracksFunction_iff_of_frame (by simp [hq])).mp hfun hm
    rw [hmsg, hblock rfl]
    exact ⟨hH, rfl, fun i hi => absurd hi (Nat.not_lt_zero _)⟩
  · exact tracksFunction_after_loadw hfun hmsg hblock hq ht
  · exact tracksFunction_after_expw hfun hmsg hblock hk hq ht
  · refine Iff.mpr (tracksFunction_iff_of_round rfl) fun hm => ?_
    obtain ⟨hH, hW⟩ := (tracksFunction_iff_of_initv (by simp [hq])).mp hfun hm
    rw [hmsg, hblock rfl, scheduleUpTo, hblock rfl]
    exact ⟨hH, hW, rfl⟩
  · exact tracksFunction_after_round hfun hmsg hblock hq ht
  · exact tracksFunction_after_fold hfun hmsg hq hlt ht
  · exact tracksFunction_after_serw hfun hmsg hq ht
  · exact fun _ => trivial

end TracksFunction

/-! ## The core's turn answers (R311) -/

section Progress

variable {s t : State}

theorem decodeSeq_of_legalSeq {q : Seq} (h : legalSeq q) : ∃ i, decodeSeq q = .ok i := by
  obtain ⟨u, x⟩ := q
  simp only [legalSeq, List.mem_cons, List.not_mem_nil, or_false] at h
  rcases h with ⟨rfl | rfl | rfl | rfl | rfl | rfl, rfl⟩ | ⟨rfl, hx⟩ | ⟨rfl, hx⟩ | rfl | ⟨rfl, hx⟩
  · exact ⟨_, rfl⟩
  · exact ⟨_, rfl⟩
  · exact ⟨_, rfl⟩
  · exact ⟨_, rfl⟩
  · exact ⟨_, rfl⟩
  · exact ⟨_, rfl⟩
  · exact ⟨_, if_pos (decide_eq_true (Nat.lt_succ_of_le hx))⟩
  · exact ⟨_, if_pos (decide_eq_true hx)⟩
  · exact ⟨_, rfl⟩
  · exact ⟨_, if_pos (decide_eq_true (Nat.lt_succ_of_le hx))⟩

/-- At a legal position the operation `SEQ` names answers, if FRAME's reads are admitted. -/
theorem exec_answers {i : Instr} (hinv : sequencerInv s) (hread : s.SEQ = ⟨2, 0⟩ → readsAdmitted s)
    (hd : decodeSeq s.SEQ = .ok i) : ∃ t, exec i s = .next t := by
  obtain ⟨-, -, -, hbelow, -⟩ := hinv
  have hlt (hu : s.SEQ.uop ∈ [2, 3, 4, 5, 6, 7]) : ¬blockCount s.L.toNat ≤ s.N.toNat := Nat.not_le.mpr (hbelow hu)
  rcases decodeSeq_ok hd with ⟨hq, rfl⟩ | ⟨hq, rfl⟩ | ⟨hq, rfl⟩ | ⟨k, hq, rfl⟩ | ⟨k, hk, hq, rfl⟩ | ⟨hq, rfl⟩ |
    ⟨k, hq, rfl⟩ | ⟨hq, rfl⟩ | ⟨k, hq, rfl⟩ | ⟨hq, rfl⟩
  · exact ⟨_, rfl⟩
  · exact ⟨_, rfl⟩
  · exact ⟨_, (if_neg (hlt (by simp [hq]))).trans (if_pos ((frameAdmitted_iff s).mpr (hread hq)))⟩
  · exact ⟨_, rfl⟩
  · exact ⟨_, if_neg (Nat.not_lt.mpr hk)⟩
  · exact ⟨_, rfl⟩
  · exact ⟨_, rfl⟩
  · exact ⟨_, if_neg (hlt (by simp [hq]))⟩
  · exact ⟨_, rfl⟩
  · exact ⟨_, rfl⟩

/-! ## How many turns are left (R224) -/

/-- The turns from a position to the end of its part of the trace (R223): SEED, a block's 131, or the last nine. -/
def turnsInPart (q : Seq) : Nat :=
  match q.uop.toNat with
  | 1 => 1
  | 2 => 131
  | 3 | 4 => 130 - q.idx.toNat
  | 5 => 66
  | 6 => 65 - q.idx.toNat
  | 7 => 1
  | 8 => 9 - q.idx.toNat
  | 9 => 1
  | _ => 0

/-- The turns the core needs from `s`, left alone, to the end of the invocation. -/
def turnsLeft (s : State) : Nat :=
  if s.SEQ.uop = 1 then turnsInPart s.SEQ + 131 * blockCount s.L.toNat + 9
  else if s.SEQ.uop ∈ [2, 3, 4, 5, 6, 7] then turnsInPart s.SEQ + 131 * (blockCount s.L.toNat - s.N.toNat - 1) + 9
  else turnsInPart s.SEQ

theorem turnsLeft_of_seed (hq : s.SEQ = ⟨1, 0⟩) : turnsLeft s = 10 + 131 * blockCount s.L.toNat := by
  simp only [turnsLeft, hq, turnsInPart, if_true, BitVec.reduceToNat]
  omega

theorem turnsLeft_of_inBlock (hq : s.SEQ.uop ∈ [2, 3, 4, 5, 6, 7]) :
    turnsLeft s = turnsInPart s.SEQ + 131 * (blockCount s.L.toNat - s.N.toNat - 1) + 9 := by
  have h1 : s.SEQ.uop ≠ 1 := by rintro e; simp [e] at hq
  rw [turnsLeft, if_neg h1, if_pos hq]

theorem turnsLeft_of_inOutput (hq : s.SEQ.uop ∈ [8, 9]) : turnsLeft s = turnsInPart s.SEQ := by
  have h1 : s.SEQ.uop ≠ 1 := by rintro e; simp [e] at hq
  rw [turnsLeft, if_neg h1, if_neg (uop_inOutput hq).2]

theorem turnsInPart_loadwNext : ∀ k : BitVec 4, turnsInPart (loadwNext k) + 1 = turnsInPart ⟨3, k.setWidth 6⟩ := by
  decide

theorem turnsInPart_expwNext : ∀ k : BitVec 6, turnsInPart (expwNext k) + 1 = turnsInPart ⟨4, k⟩ := by
  decide

theorem turnsInPart_roundNext : ∀ k : BitVec 6, turnsInPart (roundNext k) + 1 = turnsInPart ⟨6, k⟩ := by
  decide

theorem turnsInPart_serwNext : ∀ k : BitVec 3, turnsInPart (serwNext k) + 1 = turnsInPart ⟨8, k.setWidth 6⟩ := by
  decide

/-- A turn within a block is one of the block's. -/
theorem turnsLeft_succ_of_inBlock {p q : Seq} (hsq : s.SEQ = p) (htq : t.SEQ = q) (hp : p.uop ∈ [2, 3, 4, 5, 6, 7])
    (hq : q.uop ∈ [2, 3, 4, 5, 6, 7]) (hturns : turnsInPart q + 1 = turnsInPart p) (hN : t.N = s.N) (hL : t.L = s.L) :
    turnsLeft t + 1 = turnsLeft s := by
  rw [turnsLeft_of_inBlock (htq ▸ hq), turnsLeft_of_inBlock (hsq ▸ hp), hsq, htq, hN, hL]
  omega

/-- Each turn of the core off IDLE is one of the turns that were left. -/
theorem coreTurn_turnsLeft {i : Instr} (hbusy : s.SEQ ≠ ⟨0, 0⟩) (hd : decodeSeq s.SEQ = .ok i)
    (h : exec i s = .next t) : turnsLeft t + 1 = turnsLeft s := by
  rcases coreTurn_cases hd h with ⟨hq, -⟩ | ⟨hq, rfl⟩ | ⟨hq, -, -, rfl⟩ | ⟨k, hq, rfl⟩ | ⟨k, hk, hq, rfl⟩ | ⟨hq, rfl⟩ |
    ⟨k, hq, rfl⟩ | ⟨hq, hlt, rfl⟩ | ⟨k, hq, rfl⟩ | ⟨hq, rfl⟩
  · exact absurd hq hbusy
  · have hpos := blockCount_pos s.L.toNat
    rw [turnsLeft_of_seed hq, turnsLeft_of_inBlock (show (2 : BitVec 4) ∈ [2, 3, 4, 5, 6, 7] by decide)]
    simp only [turnsInPart, BitVec.reduceToNat]
    omega
  · exact turnsLeft_succ_of_inBlock (q := ⟨3, 0⟩) hq rfl (by decide) (by decide) rfl rfl rfl
  · exact turnsLeft_succ_of_inBlock hq rfl (by simp) (inBlock_loadwNext k).1 (turnsInPart_loadwNext k) rfl rfl
  · exact turnsLeft_succ_of_inBlock hq rfl (by simp) (inBlock_expwNext k hk).1 (turnsInPart_expwNext k) rfl rfl
  · exact turnsLeft_succ_of_inBlock (q := ⟨6, 0⟩) hq rfl (by decide) (by decide) rfl rfl rfl
  · exact turnsLeft_succ_of_inBlock hq rfl (by simp) (inBlock_roundNext k).1 (turnsInPart_roundNext k) rfl rfl
  · have hN := counter_succ_toNat s hlt
    rw [turnsLeft_of_inBlock (s := s) (by simp [hq]), hq]
    by_cases hmore : s.N.toNat + 1 < blockCount s.L.toNat
    · rw [turnsLeft_of_inBlock (by simp [hmore])]
      simp only [turnsInPart, hmore, if_true, BitVec.reduceToNat]
      omega
    · rw [turnsLeft_of_inOutput (by simp [hmore])]
      simp only [turnsInPart, hmore, if_false, BitVec.reduceToNat]
      omega
  · rw [turnsLeft_of_inOutput (s := s) (by simp [hq]), turnsLeft_of_inOutput (inOutput_serwNext k).1, hq]
    exact turnsInPart_serwNext k
  · rw [turnsLeft_of_inOutput (s := s) (by simp [hq]), hq]
    rfl

end Progress

/-! ## An invocation the host leaves alone (R223, R236, R244) -/

/-- Every byte of the digest depends on the message below its length only. -/
theorem sha256Byte_congr {len : Word} {m m' : Nat → Byte} (h : ∀ i, i < len.toNat → m i = m' i) (j : BitVec 5) :
    sha256Byte len m j = sha256Byte len m' j := by
  rw [sha256Byte, sha256Byte, finalHash, finalHash, hashAfter_congr h]

/-- `s` is on the way of the invocation that began in `s₀`: no turn but the core's is to come, no breach has marked a
digest byte, the invariants hold, and what the invocation only reads is as it was. -/
structure InvocationOf (s₀ s : State) : Prop where
  turns : s.turns = []
  busy : s.BUSY = true
  marks : s.digTaint = 0
  inv : sequencerInv s
  tracks : tracksFunction s
  L : s.L = s₀.L
  LEN : s.LEN = s₀.LEN
  MSG : s.MSG = s₀.MSG
  powerOn : s.powerOn = s₀.powerOn
  msgBinding : s.msgBinding = s₀.msgBinding

/-- The invocation that began in `s₀` has ended in `t`, with the digest of its message (R236, R244). -/
structure EndOf (s₀ t : State) : Prop where
  ended : invocationEnded t
  MSG : t.MSG = s₀.MSG
  LEN : t.LEN = s₀.LEN
  digest : ∀ j : BitVec 5, Memory.lookup t.DIG j.toNat = some (sha256Byte s₀.L (message s₀) j)

section Invocation

variable {s₀ s t : State}

theorem run_succ (n : Nat) (h : step s = .next t) :
    Host.Core.run Sys2Proof.core (n + 1) s = Host.Core.run Sys2Proof.core n t := by
  have hcore : Sys2Proof.core.step s = .next t := h
  simp only [Host.Core.run, hcore]

/-- Before FINISH a turn of the core answers and stays in the invocation. -/
theorem InvocationOf.advance (hs : InvocationOf s₀ s) (hread : messageReadable s₀) (hfin : s.SEQ ≠ ⟨9, 0⟩) :
    ∃ t, step s = .next t ∧ InvocationOf s₀ t ∧ turnsLeft t + 1 = turnsLeft s := by
  have hidle : s.SEQ ≠ ⟨0, 0⟩ := fun hq => by
    have hB := (sequencerInv_iff_of_idle hq).mp hs.inv
    rw [hs.busy] at hB
    cases hB
  have hadm : readsAdmitted s := fun i hi => by
    have hlt := ((mem_readsOfBlock _ _ _).mp hi).2.2
    rw [isSome_memReadMsg, hs.msgBinding, ← isSome_memReadMsg s₀]
    exact hread i (hs.L ▸ hlt)
  obtain ⟨i, hd⟩ := decodeSeq_of_legalSeq hs.inv.1
  obtain ⟨t, he⟩ := exec_answers hs.inv (fun _ => hadm) hd
  have hne : i ≠ .finish := fun e => hfin (seq_of_decodeSeq_finish (e ▸ hd))
  obtain ⟨hM, hP, hmb, -, -, hturns⟩ := exec_keeps_environment he
  obtain ⟨hL, hmarks⟩ := coreTurn_keeps_L_digTaint hd he
  obtain ⟨-, -, -, -, -, hLEN, hflags, -⟩ := exec_writers he
  refine ⟨t, ?_, ?_, coreTurn_turnsLeft hidle hd he⟩
  · rw [step_of_turns_nil hs.turns, coreStep_of_decodeSeq hd, he]
  · exact {
      turns := hturns.trans hs.turns
      busy := (hflags hne fun _ => ne_hostAccess_of_decodeSeq hd rfl).1.trans hs.busy
      marks := hmarks.trans hs.marks
      inv := coreTurn_keeps_sequencerInv hs.inv hd he
      tracks := coreTurn_keeps_tracksFunction hs.tracks hd he
      L := hL.trans hs.L
      LEN := (hLEN fun _ => ne_hostAccess_of_decodeSeq hd rfl).trans hs.LEN
      MSG := hM.trans hs.MSG
      powerOn := hP.trans hs.powerOn
      msgBinding := hmb.trans hs.msgBinding }

/-- FINISH ends the invocation with the digest in the digest space. -/
theorem InvocationOf.finish (hs : InvocationOf s₀ s) (hfin : s.SEQ = ⟨9, 0⟩) :
    ∃ t, step s = .next t ∧ EndOf s₀ t := by
  refine ⟨{ s with BUSY := false, DONE := true, SEQ := ⟨0, 0⟩ }, ?_, ⟨rfl, rfl, rfl⟩, hs.MSG, hs.LEN, fun j => ?_⟩
  · rw [step_of_turns_nil hs.turns, coreStep_of_decodeSeq (hfin ▸ rfl : decodeSeq s.SEQ = .ok .finish)]
    rfl
  · have hunmarked : s.digTaint ≠ BitVec.allOnes 32 := by rw [hs.marks]; decide
    obtain ⟨-, hD⟩ := (tracksFunction_iff_of_finish (by simp [hfin])).mp hs.tracks hunmarked
    rw [← hs.L, ← message_congr hs.powerOn hs.MSG]
    exact hD j j.isLt (by simp [hs.marks])

/-- Left alone, the core ends the invocation after the turns that are left. -/
theorem InvocationOf.run {n : Nat} (hs : InvocationOf s₀ s) (hread : messageReadable s₀) (hn : turnsLeft s = n) :
    ∃ t : State, Host.Core.run Sys2Proof.core n s = .next t ∧ EndOf s₀ t := by
  induction n generalizing s with
  | zero =>
    by_cases hfin : s.SEQ = ⟨9, 0⟩
    · rw [turnsLeft_of_inOutput (by simp [hfin]), hfin] at hn
      cases hn
    · obtain ⟨t, -, -, ht⟩ := hs.advance hread hfin
      omega
  | succ n ih =>
    by_cases hfin : s.SEQ = ⟨9, 0⟩
    · obtain ⟨t, hstep, hend⟩ := hs.finish hfin
      rw [turnsLeft_of_inOutput (by simp [hfin]), hfin] at hn
      obtain rfl : n = 0 := by simpa [turnsInPart] using hn.symm
      exact ⟨t, run_succ 0 hstep, hend⟩
    · obtain ⟨t, hstep, hs', ht⟩ := hs.advance hread hfin
      rw [run_succ n hstep]
      exact ih hs' (by omega)

/-- An accepted START begins an invocation (R239). -/
theorem invocationOf_acceptStart (hturns : s.turns = []) : InvocationOf (acceptStart s) (acceptStart s) where
  turns := hturns
  busy := rfl
  marks := rfl
  inv := (sequencerInv_iff_of_seed rfl).mpr ⟨rfl, rfl⟩
  tracks := fun _ => trivial
  L := rfl
  LEN := rfl
  MSG := rfl
  powerOn := rfl
  msgBinding := rfl

theorem decodeHost_wrctrl (d : Word) : decodeHost (hostWord true 0 d) = .wrctrl d := by
  simp only [decodeHost, hostWord_wr, hostWord_reg, hostWord_data]
  rfl

/-- A write of CTRL with bit 0 set, on an idle core and under the launch premises, is accepted (R239, R300). -/
theorem exec_wrctrl_of_launchAllowed {d : Word} (hd : d.toNat % 2 = 1) (hidle : s.BUSY = false)
    (hlaunch : launchAllowed s) : exec (.wrctrl d) s = .next (acceptStart s) := by
  have hbit := (startBit_iff d).mpr hd
  obtain ⟨hwritable, hoverlap⟩ := hlaunch
  simp [exec, execWrctrl, hbit, hidle, hwritable, hoverlap]

/-- A START that the host makes and leaves alone ends with the digest of the message, after the START and the turns of
R224. -/
theorem run_of_start {d : Word} (hturns : s.turns = [.access (hostWord true 0 d)]) (hd : d.toNat % 2 = 1)
    (hidle : s.BUSY = false) (hlaunch : launchAllowed s)
    (hread : ∀ i, i < s.LEN.toNat → (memReadMsg s i).isSome = true) :
    ∃ t : State,
      Host.Core.run Sys2Proof.core (11 + 131 * blockCount s.LEN.toNat) s = .next t ∧
        EndOf (acceptStart { s with turns := [] }) t := by
  have hstep : step s = .next (acceptStart { s with turns := [] }) := by
    rw [step_of_turns_access hturns, decodeHost_wrctrl]
    exact exec_wrctrl_of_launchAllowed hd hidle hlaunch
  rw [show 11 + 131 * blockCount s.LEN.toNat = 10 + 131 * blockCount s.LEN.toNat + 1 by omega, run_succ _ hstep]
  have hstart : InvocationOf _ (acceptStart { s with turns := [] }) := invocationOf_acceptStart rfl
  exact hstart.run hread (turnsLeft_of_seed rfl)

end Invocation

/-- Settles O60: both runs end with the digest of their message, and it is the same message below the length. -/
theorem digestDependsOnMessageOnly : Obligations.DigestDependsOnMessageOnly := by
  unfold Obligations.DigestDependsOnMessageOnly
  intro s s' d d' hturns hturns' hd hd' hidle hidle' hlaunch hlaunch' hLEN hread
  have hmsg (i : Nat) (hi : i < s.LEN.toNat) : message s i = message s' i := by
    obtain ⟨b, hb⟩ := Option.isSome_iff_exists.mp (hread i hi).1
    exact (messageOf_of_memReadMsg hb).trans (messageOf_of_memReadMsg ((hread i hi).2.trans hb)).symm
  obtain ⟨t, hrun, hend⟩ := run_of_start hturns hd hidle hlaunch fun i hi => (hread i hi).1
  obtain ⟨t', hrun', hend'⟩ := run_of_start hturns' hd' hidle' hlaunch' fun i hi => by
    rw [hLEN] at hi
    rw [(hread i hi).2]
    exact (hread i hi).1
  refine ⟨t, t', hrun, hLEN ▸ hrun', hend.ended, hend'.ended, fun j => ?_⟩
  have hdigest : Memory.lookup t.DIG j.toNat = some (sha256Byte s.LEN (message s) j) := hend.digest j
  have hdigest' : Memory.lookup t'.DIG j.toNat = some (sha256Byte s'.LEN (message s') j) := hend'.digest j
  rw [hdigest, hdigest', hLEN, sha256Byte_congr hmsg]
  exact ⟨rfl, rfl⟩

end Sys2Proof.Machine

/-! PROOFS. Memory (spec file 20): which message indices FRAME reads and what stops it, and that the digest space holds
the digest from FINISH on. -/

namespace Sys2Proof.Machine

/-! ## The message reads of an invocation (R66) -/

/-- The indices of `n` blocks of 64 follow one another without a gap (R65). -/
theorem flatMap_blockIndices (n : Nat) :
    (List.range n).flatMap (fun k => (List.range 64).map fun j => 64 * k + j) = List.range (64 * n) := by
  induction n with
  | zero => rfl
  | succ n ih =>
    rw [List.range_succ (n := n), List.flatMap_append, ih, List.flatMap_singleton, Nat.mul_succ, List.range_add]

theorem filter_lt_range {len n : Nat} (h : len ≤ n) :
    (List.range n).filter (fun i => decide (i < len)) = List.range len := by
  obtain ⟨k, rfl⟩ := Nat.exists_eq_add_of_le h
  have hbelow : (List.range len).filter (fun i => decide (i < len)) = List.range len :=
    List.filter_eq_self.mpr fun i hi => decide_eq_true (List.mem_range.mp hi)
  have habove : ((List.range k).map (len + ·)).filter (fun i => decide (i < len)) = [] := by
    simp [List.filter_eq_nil_iff]
  rw [List.range_add, List.filter_append, hbelow, habove, List.append_nil]

/-- The blocks of the padded stream cover the message (R153). -/
theorem le_blockCount (len : Nat) : len ≤ 64 * blockCount len := by
  rw [blockCount_eq]
  omega

/-- Settles O18: the blocks' indices are those of the padded stream in order, and FRAME asks for those below `L`. -/
theorem messageIsReadOnceInOrder : Obligations.MessageIsReadOnceInOrder := by
  unfold Obligations.MessageIsReadOnceInOrder
  intro len
  unfold readsOfBlock
  rw [← List.filter_flatMap, flatMap_blockIndices, filter_lt_range (le_blockCount len)]

/-! ## FRAME without admission (R69) -/

theorem not_readsAdmitted {s : State} {i : Nat} (hi : i ∈ readsOfBlock s.L.toNat s.N.toNat)
    (hnone : memReadMsg s i = none) : ¬readsAdmitted s := fun hadm => by
  have hsome := hadm i hi
  rw [hnone] at hsome
  cases hsome

theorem execFrame_of_not_readsAdmitted {s : State} (hlt : s.N.toNat < blockCount s.L.toNat)
    (hadm : ¬readsAdmitted s) : execFrame s = .fault .stuckMessageRead := by
  rw [execFrame, if_neg (Nat.not_le.mpr hlt), if_neg fun h => hadm ((frameAdmitted_iff s).mp h)]

/-- Settles O20: one read that is not admitted is enough. -/
theorem frameWithoutAdmissionIsStuck : Obligations.FrameWithoutAdmissionIsStuck := by
  unfold Obligations.FrameWithoutAdmissionIsStuck
  rintro s hlt ⟨i, hi, hnone⟩
  exact execFrame_of_not_readsAdmitted hlt (not_readsAdmitted hi hnone)

/-! ## The digest from FINISH on (R76, R236, R303) -/

section Digest

variable {s t : State}

theorem coreStep_of_finish (hq : s.SEQ = ⟨9, 0⟩) :
    coreStep s = .next { s with BUSY := false, DONE := true, SEQ := ⟨0, 0⟩ } :=
  coreStep_of_decodeSeq (i := .finish) (hq ▸ rfl)

theorem seq_of_legalSeq_idle {q : Seq} (h : legalSeq q) (h0 : q.uop = 0) : q = ⟨0, 0⟩ := by
  obtain ⟨u, x⟩ := q
  obtain rfl : u = 0 := h0
  simpa [legalSeq] using h

/-- Under the sequencer invariants DONE = 1 is said at IDLE only, with BUSY = 0. -/
theorem idle_of_done (hinv : sequencerInv s) (hD : s.DONE = true) : s.SEQ = ⟨0, 0⟩ ∧ s.BUSY = false := by
  by_cases h0 : s.SEQ.uop = 0
  · have hq : s.SEQ = ⟨0, 0⟩ := seq_of_legalSeq_idle hinv.1 h0
    exact ⟨hq, (sequencerInv_iff_of_idle hq).mp hinv⟩
  · obtain ⟨-, -, hD', -⟩ := (sequencerInv_iff_of_ne_idle h0).mp hinv
    rw [hD] at hD'
    cases hD'

/-- A core's turn at IDLE passes (R220). -/
theorem coreTurn_of_idle {i : Instr} (hq : s.SEQ = ⟨0, 0⟩) (hd : decodeSeq s.SEQ = .ok i) (h : exec i s = .next t) :
    t = s := by
  rw [hq] at hd
  cases hd
  cases h
  rfl

/-- A store to another digest index leaves digest byte `k` and its mark. -/
theorem hostStoreDig_other {j : BitVec 5} {k : Nat} (b : Byte) (h : j.toNat ≠ k) :
    Memory.lookup (hostStoreDig j b s).DIG k = Memory.lookup s.DIG k ∧
      (hostStoreDig j b s).digTaint.getLsbD k = s.digTaint.getLsbD k :=
  ⟨lookup_write_other _ b h, by rw [getLsbD_hostStoreDig, if_neg h]⟩

/-- While the core is idle a store to a message index at another address leaves digest byte `k` and its mark. -/
theorem hostStoreMsg_of_idle {i : BitVec 32} {k : Nat} (b : Byte) (hidle : s.BUSY = false)
    (hs : ¬sharesByte s i.toNat k = true) :
    Memory.lookup (hostStoreMsg i b s).DIG k = Memory.lookup s.DIG k ∧
      (hostStoreMsg i b s).digTaint.getLsbD k = s.digTaint.getLsbD k := by
  obtain ⟨hdig, hmark⟩ := hostStoreMsg_at_unshared b fun h : _ ∧ _ => hs h.2
  exact ⟨hdig, by simpa [hidle] using hmark⟩

/-- A register access after which DONE = 1 is no accepted START: it leaves the digest space and the marks. -/
theorem hostAccess_keeps_digest {i : Instr} (hi : isHostAccess i = true) (h : exec i s = .next t)
    (hD : t.DONE = true) : t.DIG = s.DIG ∧ t.digTaint = s.digTaint := by
  rcases hostAccess_cases hi h with ⟨-, -, rfl⟩ | ⟨x, y, rfl⟩
  · cases hD
  · exact ⟨rfl, rfl⟩

end Digest

/-- Settles O57: FINISH leaves what the functional invariant says of the digest space; with DONE = 1 the core is idle, and
of the other turns only a store to the byte, under either index, could change it. -/
theorem digestIsRightAtFinishAndKept : Obligations.DigestIsRightAtFinishAndKept := by
  unfold Obligations.DigestIsRightAtFinishAndKept
  refine ⟨fun s _ hfun hq hmarks => ?atFinish, fun s t j hinv hD h hD' hdig hmsg => ?kept⟩
  case atFinish =>
    obtain ⟨-, hdigest⟩ := (tracksFunction_iff_of_finish (by simp [hq])).mp hfun hmarks
    exact ⟨_, coreStep_of_finish hq, ⟨rfl, rfl, rfl⟩, fun j => hdigest j j.isLt⟩
  case kept =>
    obtain ⟨hidle, hB⟩ := idle_of_done hinv hD
    rcases step_next h with ⟨rest, i, -, hd, he⟩ | ⟨i, turn, rest, -, hi, he⟩ | ⟨turn, rest, -, rfl⟩ |
      ⟨i, b, rest, hs, rfl⟩ | ⟨k, rest, -, rfl⟩ | ⟨k, b, rest, hs, rfl⟩ | ⟨rest, -, rfl⟩
    · obtain rfl := coreTurn_of_idle (s := { s with turns := rest }) hidle hd he
      exact ⟨rfl, rfl⟩
    · obtain ⟨hDIG, hmark⟩ := hostAccess_keeps_digest hi he hD'
      rw [hDIG, hmark]
      exact ⟨rfl, rfl⟩
    · exact ⟨rfl, rfl⟩
    · refine hostStoreMsg_of_idle (s := { s with turns := rest }) b hB fun hshare => ?_
      obtain ⟨a, hi, hj⟩ := (sharesByte_iff _ _ _).mp hshare
      exact hmsg i b rest a hs hi hj
    · simp
    · exact hostStoreDig_other b fun e => hdig b rest (BitVec.eq_of_toNat_eq e ▸ hs)
    · cases hD'

end Sys2Proof.Machine

/-! PROOFS. Encoding (spec file 30): decoding and encoding are inverse, the legal sequencer words are those of R93, and
every host word names an operation. -/

namespace Sys2Proof.Machine

/-! ## Words and their fields (R91, R94) -/

@[simp] theorem word_ofWord (w : BitVec 10) : (Seq.ofWord w).word = w := by
  show w.extractLsb' 6 4 ++ w.extractLsb' 0 6 = w
  rw [BitVec.extractLsb'_append_extractLsb'_eq_extractLsb' (start₁ := 0) (len₁ := 6) rfl]
  exact BitVec.extractLsb'_eq_self

theorem toNat_hostWord (wr : Bool) (reg : BitVec 4) (data : Word) :
    (hostWord wr reg data).toNat = wr.toNat * 2 ^ 36 + reg.toNat * 2 ^ 32 + data.toNat := by
  have hhigh : (BitVec.ofBool wr ++ reg).toNat = wr.toNat * 2 ^ 4 + reg.toNat := by
    rw [BitVec.toNat_append, BitVec.toNat_ofBool, ← Nat.shiftLeft_add_eq_or_of_lt reg.isLt, Nat.shiftLeft_eq]
  rw [hostWord, BitVec.toNat_append, hhigh, ← Nat.shiftLeft_add_eq_or_of_lt data.isLt, Nat.shiftLeft_eq]
  omega

/-- Every 37-bit word is put together from its own three fields (R94). -/
theorem hostWord_fields (w : BitVec 37) :
    hostWord (w.getLsbD 36) (w.extractLsb' 32 4) (w.extractLsb' 0 32) = w := by
  apply BitVec.eq_of_getLsbD_eq
  intro i hi
  rw [hostWord_getLsbD]
  by_cases hdata : i < 32
  · simp [hdata]
  · by_cases hreg : i < 36
    · simp [hdata, hreg, show i - 32 < 4 by omega, show 32 + (i - 32) = i by omega]
    · obtain rfl : i = 36 := by omega
      simp

/-! ## Host words (R95) -/

/-- The registers of R95: CTRL, STATUS and LEN, and from 3 on the reserved ones. -/
theorem reg_cases (reg : BitVec 4) :
    reg = 0 ∨ reg = 1 ∨ reg = 2 ∨ (reg ≠ 0 ∧ reg ≠ 1 ∧ reg ≠ 2 ∧ 3 ≤ reg.toNat) := by
  revert reg; decide

theorem decodeHost_of_reserved {reg : BitVec 4} (wr : Bool) (data : Word) (h : 3 ≤ reg.toNat) :
    decodeHost (hostWord wr reg data) = if wr then .wrrsvd reg data else .rdrsvd reg data := by
  obtain ⟨n, hn⟩ := Nat.exists_eq_add_of_le' h
  simp only [decodeHost, hostWord_wr, hostWord_reg, hostWord_data, hn]
  cases wr <;> rfl

/-- The map of R95: the operation that `WR` and `REG` name, carrying `DATA`. -/
theorem decodeHost_hostWord (wr : Bool) (reg : BitVec 4) (data : Word) :
    decodeHost (hostWord wr reg data) =
      if reg = 0 then (if wr then .wrctrl data else .rdctrl data)
      else if reg = 1 then (if wr then .wrstatus data else .rdstatus data)
      else if reg = 2 then (if wr then .wrlen data else .rdlen data)
      else if wr then .wrrsvd reg data else .rdrsvd reg data := by
  rcases reg_cases reg with h | h | h | ⟨h0, h1, h2, hreg⟩
  case inr.inr.inr => rw [decodeHost_of_reserved wr data hreg, if_neg h0, if_neg h1, if_neg h2]
  all_goals
    subst h
    simp only [decodeHost, hostWord_wr, hostWord_reg, hostWord_data]
    cases wr <;> rfl

theorem encode_decodeHost (w : BitVec 37) :
    (decodeHost w).wellFormed = true ∧ encode (decodeHost w) = .h w := by
  rw [← hostWord_fields w]
  generalize w.getLsbD 36 = wr, w.extractLsb' 32 4 = reg, w.extractLsb' 0 32 = data
  rcases reg_cases reg with h | h | h | ⟨-, -, -, hreg⟩
  case inr.inr.inr =>
    rw [decodeHost_of_reserved wr data hreg]
    cases wr <;> exact ⟨decide_eq_true hreg, rfl⟩
  all_goals
    subst h
    rw [decodeHost_hostWord]
    cases wr <;> exact ⟨rfl, rfl⟩

/-! ## Sequencer words (R93) -/

theorem decodeSeq_seqLoadw (t : BitVec 4) : decodeSeq (seqLoadw t) = .ok (.loadw t) := by
  revert t; decide

theorem decodeSeq_seqSerw (i : BitVec 3) : decodeSeq (seqSerw i) = .ok (.serw i) := by
  revert i; decide

theorem decodeSeq_seqExpw {t : BitVec 6} (h : 16 ≤ t.toNat) : decodeSeq (seqExpw t) = .ok (.expw t) :=
  if_pos (decide_eq_true h)

theorem encode_of_decodeSeq {q : Seq} {i : Instr} (h : decodeSeq q = .ok i) :
    i.wellFormed = true ∧ encode i = .u q.word := by
  rcases decodeSeq_ok h with ⟨rfl, rfl⟩ | ⟨rfl, rfl⟩ | ⟨rfl, rfl⟩ | ⟨t, rfl, rfl⟩ | ⟨t, ht, rfl, rfl⟩ | ⟨rfl, rfl⟩ |
    ⟨t, rfl, rfl⟩ | ⟨rfl, rfl⟩ | ⟨t, rfl, rfl⟩ | ⟨rfl, rfl⟩
  case inr.inr.inr.inr.inl => exact ⟨decide_eq_true ht, rfl⟩
  all_goals exact ⟨rfl, rfl⟩

theorem legalSeq_of_decodeSeq {q : Seq} {i : Instr} (h : decodeSeq q = .ok i) : legalSeq q := by
  have hloadw : ∀ t : BitVec 4, legalSeq (seqLoadw t) := by decide
  have hserw : ∀ i : BitVec 3, legalSeq (seqSerw i) := by decide
  rcases decodeSeq_ok h with ⟨rfl, -⟩ | ⟨rfl, -⟩ | ⟨rfl, -⟩ | ⟨t, rfl, -⟩ | ⟨t, ht, rfl, -⟩ | ⟨rfl, -⟩ |
    ⟨t, rfl, -⟩ | ⟨rfl, -⟩ | ⟨t, rfl, -⟩ | ⟨rfl, -⟩
  · decide
  · decide
  · decide
  · exact hloadw t
  · simp [legalSeq, ht]
  · decide
  · simp [legalSeq]
  · decide
  · exact hserw t
  · decide

/-- Settles O1: by the operation; a fixed position decodes by computation, an indexed one by its own lemma, and a host
operation by the map of R95. -/
theorem decodeOfEncodeIsIdentity : Obligations.DecodeOfEncodeIsIdentity := by
  unfold Obligations.DecodeOfEncodeIsIdentity
  intro i hwf
  cases i with
  | idle | seed | frame | initv | round | fold | finish => exact decode_word _
  | loadw t => exact (decode_word _).trans (decodeSeq_seqLoadw t)
  | expw t => exact (decode_word _).trans (decodeSeq_seqExpw (of_decide_eq_true hwf))
  | serw i => exact (decode_word _).trans (decodeSeq_seqSerw i)
  | wrctrl d => exact congrArg Except.ok (decodeHost_hostWord true 0 d)
  | rdctrl d => exact congrArg Except.ok (decodeHost_hostWord false 0 d)
  | rdstatus d => exact congrArg Except.ok (decodeHost_hostWord false 1 d)
  | wrstatus d => exact congrArg Except.ok (decodeHost_hostWord true 1 d)
  | wrlen d => exact congrArg Except.ok (decodeHost_hostWord true 2 d)
  | rdlen d => exact congrArg Except.ok (decodeHost_hostWord false 2 d)
  | rdrsvd reg d => exact congrArg Except.ok (decodeHost_of_reserved false d (of_decide_eq_true hwf))
  | wrrsvd reg d => exact congrArg Except.ok (decodeHost_of_reserved true d (of_decide_eq_true hwf))

/-- Settles O2: by the format; a sequencer word is the word of its position. -/
theorem encodeOfDecodeIsIdentity : Obligations.EncodeOfDecodeIsIdentity := by
  unfold Obligations.EncodeOfDecodeIsIdentity
  intro c i h
  cases c with
  | u w =>
    rw [← word_ofWord w]
    exact encode_of_decodeSeq h
  | h w =>
    rw [← decodeHost_of_decode h]
    exact encode_decodeHost w

/-! ## The 142 legal words (R93) -/

/-- How many values of `IDX` R93 gives to a value of `UOP`. -/
def legalIndexCount (uop : Nat) : Nat := [1, 1, 1, 16, 48, 1, 64, 1, 8, 1].getD uop 0

theorem length_filter_decodeTableWord :
    ∀ uop < 16, ((List.range 64).filter fun idx => (decodeTableWord 10 (64 * uop + idx)).isSome).length =
      legalIndexCount uop := by
  decide

/-- A count over `n` blocks of 64 is the sum of the counts over each. -/
theorem length_filter_range_blocks (p : Nat → Bool) (n : Nat) :
    ((List.range (64 * n)).filter p).length =
      ((List.range n).map fun k => ((List.range 64).filter fun j => p (64 * k + j)).length).sum := by
  rw [← flatMap_blockIndices, List.filter_flatMap, List.length_flatMap]
  simp only [List.filter_map, List.length_map, Function.comp_def]

/-- Settles O3: a position decodes exactly if it is legal, and the words are counted `UOP` by `UOP`. -/
theorem legalSequencerWordsAre142 : Obligations.LegalSequencerWordsAre142 := by
  unfold Obligations.LegalSequencerWordsAre142
  refine ⟨fun w => ⟨fun ⟨_, h⟩ => legalSeq_of_decodeSeq h, decodeSeq_of_legalSeq⟩, ?count⟩
  case count =>
    calc ((List.range (64 * 16)).filter fun n => (decodeTableWord 10 n).isSome).length
      _ = ((List.range 16).map legalIndexCount).sum := by
        rw [length_filter_range_blocks, List.map_congr_left fun uop h =>
          length_filter_decodeTableWord uop (List.mem_range.mp h)]
      _ = 142 := by decide

/-- Settles O5: the value and the map of a host word, and that every word is made of its fields. -/
theorem hostWordMapIsTotal : Obligations.HostWordMapIsTotal := by
  unfold Obligations.HostWordMapIsTotal
  exact ⟨fun wr reg data =>
      ⟨toNat_hostWord wr reg data, congrArg Except.ok (decodeHost_hostWord wr reg data)⟩,
    fun w => ⟨_, _, _, (hostWord_fields w).symm⟩⟩

/-! ## Reserved sequencer words (R97) -/

theorem coreStep_of_not_legalSeq {s : State} (h : ¬legalSeq s.SEQ) :
    coreStep s = .refused (.unreachableSequencerWord s.SEQ) := by
  cases hd : decodeSeq s.SEQ with
  | ok i => exact absurd (legalSeq_of_decodeSeq hd) h
  | error e => simp [coreStep, currentOperation, hd]

/-- Settles O4: an illegal position does not decode, and EXPW checks its own index. -/
theorem reservedSequencerWordIsRefused : Obligations.ReservedSequencerWordIsRefused := by
  unfold Obligations.ReservedSequencerWordIsRefused
  exact ⟨fun _ h => coreStep_of_not_legalSeq h, fun _ _ ht => if_pos ht⟩

/-- Settles O6: each word is the encoding of its operation, so O1 decodes it. -/
theorem specWordsDecode : Obligations.SpecWordsDecode := by
  unfold Obligations.SpecWordsDecode
  have hdec := decodeOfEncodeIsIdentity
  exact ⟨hdec (.loadw 15) rfl, hdec (.expw 16) rfl, hdec (.round 63) rfl, hdec (.serw 7) rfl, hdec .finish rfl,
    hdec (.wrctrl 1) rfl, hdec (.wrlen 64) rfl, hdec (.rdstatus 0) rfl, hdec (.wrrsvd 7 0xDEADBEEF) rfl,
    hdec (.rdrsvd 15 0) rfl⟩

end Sys2Proof.Machine

/-! PROOFS. Word functions (spec file 40): SHR and ROTR in bits and in arithmetic, the round functions bit by bit, and
big-endian packing. -/

namespace Sys2Proof.Machine

/-! ## Shift and rotation (R123, R124) -/

section Rotation

variable {n : Nat} (x : Word)

theorem toNat_shr : (shr x n).toNat = x.toNat / 2 ^ n := by
  rw [shr, BitVec.toNat_ushiftRight, Nat.shiftRight_eq_div_pow]

/-- R124 bit by bit: the shift to the right gives the bits that stay in the word, that to the left those that re-enter. -/
theorem getLsbD_rotr {i : Nat} (hn : n ≤ 32) (hi : i < 32) : (rotr x n).getLsbD i = x.getLsbD ((i + n) % 32) := by
  rw [rotr, BitVec.getLsbD_or, BitVec.getLsbD_ushiftRight, BitVec.getLsbD_shiftLeft, Nat.add_comm n i]
  by_cases hstay : i + n < 32
  · simp [Nat.mod_eq_of_lt hstay, show i < 32 - n by omega]
  · have hindex : (i + n) % 32 = i - (32 - n) := by omega
    simp [hindex, hi, show ¬i < 32 - n by omega, BitVec.getLsbD_of_ge x (i + n) (by omega)]

/-- R124 in arithmetic: the high bits move down by `n`, the low `n` bits stand above them, so nothing is carried. -/
theorem toNat_rotr (hn : n ≤ 32) : (rotr x n).toNat = x.toNat / 2 ^ n + x.toNat % 2 ^ n * 2 ^ (32 - n) := by
  have hpow : 2 ^ 32 = 2 ^ n * 2 ^ (32 - n) := by rw [← Nat.pow_add, Nat.add_sub_cancel' hn]
  have hlow : x.toNat * 2 ^ (32 - n) % 2 ^ 32 = x.toNat % 2 ^ n * 2 ^ (32 - n) := by
    rw [hpow, Nat.mul_mod_mul_right]
  have hhigh : x.toNat / 2 ^ n < 2 ^ (32 - n) := Nat.div_lt_of_lt_mul (hpow ▸ x.isLt)
  calc (rotr x n).toNat
    _ = x.toNat / 2 ^ n ||| x.toNat % 2 ^ n * 2 ^ (32 - n) := by
      rw [rotr, BitVec.toNat_or, BitVec.toNat_ushiftRight, BitVec.toNat_shiftLeft, Nat.shiftRight_eq_div_pow,
        Nat.shiftLeft_eq, hlow]
    _ = x.toNat / 2 ^ n + x.toNat % 2 ^ n * 2 ^ (32 - n) := by
      rw [Nat.or_comm, Nat.add_comm, ← Nat.shiftLeft_eq, Nat.shiftLeft_add_eq_or_of_lt hhigh]

theorem rotr_rotr_sub (hn : n ≤ 32) : rotr (rotr x n) (32 - n) = x := by
  apply BitVec.eq_of_getLsbD_eq
  intro i hi
  rw [getLsbD_rotr _ (Nat.sub_le 32 n) hi, getLsbD_rotr x hn (Nat.mod_lt _ (by decide))]
  congr 1
  omega

end Rotation

/-- Settles O8: the bits decide the inverse, and the arithmetic form is below `2^32` because it is a word's value. -/
theorem rotateAndShiftRight : Obligations.RotateAndShiftRight := by
  unfold Obligations.RotateAndShiftRight
  refine ⟨fun x _ _ => toNat_shr x, fun x n _ hn => ?rotation⟩
  case rotation =>
    have hn32 : n ≤ 32 := Nat.le_succ_of_le hn
    refine ⟨fun i hi => getLsbD_rotr x hn32 hi, ?arithmetic, rotr_rotr_sub x hn32⟩
    rw [← toNat_rotr x hn32, Nat.mod_eq_of_lt (rotr x n).isLt]

/-! ## The round functions (R125 to R128) -/

/-- Settles O10: a bit of each of the three rotations. -/
theorem bigSigmaFunctionsBitwise : Obligations.BigSigmaFunctionsBitwise := by
  unfold Obligations.BigSigmaFunctionsBitwise
  intro x i hi
  have hbit : ∀ n ≤ 32, (rotr x n).getLsbD i = x.getLsbD ((i + n) % 32) := fun n hn => getLsbD_rotr x hn hi
  constructor
  case left =>
    rw [bsig0, BitVec.getLsbD_xor, BitVec.getLsbD_xor, hbit 2 (by decide), hbit 13 (by decide), hbit 22 (by decide)]
  case right =>
    rw [bsig1, BitVec.getLsbD_xor, BitVec.getLsbD_xor, hbit 6 (by decide), hbit 11 (by decide), hbit 25 (by decide)]

theorem getLsbD_ch (e f g : Word) {i : Nat} (hi : i < 32) :
    (ch e f g).getLsbD i = if e.getLsbD i then f.getLsbD i else g.getLsbD i := by
  rw [ch, BitVec.getLsbD_xor, BitVec.getLsbD_and, BitVec.getLsbD_and, BitVec.getLsbD_not]
  cases e.getLsbD i <;> simp [hi]

theorem getLsbD_maj (a b c : Word) (i : Nat) :
    (maj a b c).getLsbD i =
      ((a.getLsbD i && b.getLsbD i) ^^ (a.getLsbD i && c.getLsbD i) ^^ (b.getLsbD i && c.getLsbD i)) := by
  simp only [maj, BitVec.getLsbD_xor, BitVec.getLsbD_and]

/-- R126 on bits: the exclusive OR of the three pairs is the majority, since no pair is set, one is, or all three are. -/
theorem xor_pairs_iff_two_le (p q r : Bool) :
    ((p && q) ^^ (p && r) ^^ (q && r)) = true ↔ 2 ≤ p.toNat + q.toNat + r.toNat := by
  revert p q r; decide

theorem maj_comm_left (a b c : Word) : maj a b c = maj b a c := by
  rw [maj, maj, BitVec.and_comm a b, BitVec.xor_assoc, BitVec.xor_comm (a &&& c), ← BitVec.xor_assoc]

theorem maj_comm_right (a b c : Word) : maj a b c = maj a c b := by
  rw [maj, maj, BitVec.and_comm b c, BitVec.xor_comm (a &&& b)]

/-- Settles O9: CH and MAJ on bits, and that exchanging operands of MAJ exchanges two of its three terms. -/
theorem chooseAndMajorityBitwise : Obligations.ChooseAndMajorityBitwise := by
  unfold Obligations.ChooseAndMajorityBitwise
  refine ⟨fun e f g i hi => getLsbD_ch e f g hi, fun a b c i _ => ?maj,
    fun a b c => ⟨maj_comm_left a b c, maj_comm_right a b c⟩⟩
  case maj => rw [getLsbD_maj, xor_pairs_iff_two_le]

/-! ## Big-endian packing (R13, R131) -/

theorem toNat_append_byte {w : Nat} (x : BitVec w) (b : Byte) : (x ++ b).toNat = x.toNat * 2 ^ 8 + b.toNat := by
  rw [BitVec.toNat_append, ← Nat.shiftLeft_add_eq_or_of_lt b.isLt, Nat.shiftLeft_eq]

section Packing

variable (b0 b1 b2 b3 : Byte)

theorem toNat_be32 :
    (be32 b0 b1 b2 b3).toNat = b0.toNat * 2 ^ 24 + b1.toNat * 2 ^ 16 + b2.toNat * 2 ^ 8 + b3.toNat := by
  rw [be32, toNat_append_byte, toNat_append_byte, toNat_append_byte]
  omega

@[simp] theorem byteOf_be32_zero : byteOf (be32 b0 b1 b2 b3) 0 = b0 := by
  show (b0 ++ b1 ++ b2 ++ b3).extractLsb' 24 8 = b0
  rw [BitVec.extractLsb'_append_eq_of_le (by decide), BitVec.extractLsb'_append_eq_of_le (by decide)]
  exact BitVec.extractLsb'_append_eq_left

@[simp] theorem byteOf_be32_one : byteOf (be32 b0 b1 b2 b3) 1 = b1 := by
  show (b0 ++ b1 ++ b2 ++ b3).extractLsb' 16 8 = b1
  rw [BitVec.extractLsb'_append_eq_of_le (by decide), BitVec.extractLsb'_append_eq_of_le (by decide)]
  exact BitVec.extractLsb'_append_eq_right

@[simp] theorem byteOf_be32_two : byteOf (be32 b0 b1 b2 b3) 2 = b2 := by
  show (b0 ++ b1 ++ b2 ++ b3).extractLsb' 8 8 = b2
  rw [BitVec.extractLsb'_append_eq_of_le (by decide)]
  exact BitVec.extractLsb'_append_eq_right

@[simp] theorem byteOf_be32_three : byteOf (be32 b0 b1 b2 b3) 3 = b3 :=
  BitVec.extractLsb'_append_eq_right

end Packing

/-- Settles O12: the value byte by byte, each byte at its offset in the word, and `be32_byteOf`. -/
theorem packingIsInverse : Obligations.PackingIsInverse := by
  unfold Obligations.PackingIsInverse
  exact ⟨fun b0 b1 b2 b3 => ⟨toNat_be32 b0 b1 b2 b3, byteOf_be32_zero b0 b1 b2 b3, byteOf_be32_one b0 b1 b2 b3,
    byteOf_be32_two b0 b1 b2 b3, byteOf_be32_three b0 b1 b2 b3⟩, be32_byteOf⟩

end Sys2Proof.Machine

/-! PROOFS. Padding and framing (spec file 41): the padding quantities, the four ranges of the padded stream, its
invariants, the shape of its blocks, and what FRAME writes. -/

namespace Sys2Proof.Machine

/-! ## The padding quantities (R150 to R153) -/

/-- What determines the zero count: it is below 64, and the marker, the zeros and the trailer complete a block. -/
theorem zeroCount_spec (len : Nat) : zeroCount len ≤ 63 ∧ 64 ∣ len + 1 + zeroCount len + 8 := by
  unfold zeroCount
  omega

theorem paddedLength_eq (len : Nat) : paddedLength len = 64 * ((len + 8) / 64 + 1) := by
  obtain ⟨hle, hdvd⟩ := zeroCount_spec len
  unfold paddedLength
  omega

theorem toNat_bitLength (len : Word) : (bitLength len).toNat = 8 * len.toNat := by
  have := len.isLt
  rw [bitLength, BitVec.toNat_shiftLeft, BitVec.toNat_setWidth, Nat.shiftLeft_eq]
  omega

/-- Settles O13: the zero count is the one value in 0..63 that completes a multiple of 64. -/
theorem zeroCountIsLeast : Obligations.ZeroCountIsLeast := by
  unfold Obligations.ZeroCountIsLeast
  intro len
  obtain ⟨hle, hdvd⟩ := zeroCount_spec len
  refine ⟨Nat.mod_eq_zero_of_dvd hdvd, fun p hp => ?least, hle, ?zero, ?all⟩
  all_goals omega

/-- Settles O14: the quantities in the closed forms of `paddedLength_eq`, `blockCount_eq` and `toNat_bitLength`. -/
theorem paddingQuantities : Obligations.PaddingQuantities := by
  unfold Obligations.PaddingQuantities
  refine ⟨fun len => ⟨rfl, paddedLength_eq len, ?_⟩, toNat_bitLength⟩
  rw [paddedLength_eq, blockCount_eq]
  omega

/-! ## The four ranges of the padded stream (R154) -/

theorem toNat_be64 (k : Nat) (x : BitVec 64) : (be64 k x).toNat = x.toNat / 2 ^ (8 * (7 - k)) % 256 := by
  rw [be64, BitVec.extractLsb'_toNat, Nat.shiftRight_eq_div_pow, show 56 - 8 * k = 8 * (7 - k) by omega]

/-- The trailer begins above the marker. -/
theorem lt_trailerStart (len : Nat) : len < paddedLength len - 8 := by
  rw [paddedLength_eq]
  omega

section Stream

variable {len : Word} (msg : Nat → Byte) {i : Nat}

theorem paddedByte_message (h : i < len.toNat) : paddedByte len msg i = msg i := if_pos h

theorem paddedByte_marker (h : i = len.toNat) : paddedByte len msg i = 0x80 := by
  simp [paddedByte, h]

theorem paddedByte_zero (hlo : len.toNat < i) (hhi : i < paddedLength len.toNat - 8) : paddedByte len msg i = 0 := by
  rw [paddedByte, if_neg (Nat.lt_asymm hlo), if_neg (Nat.ne_of_gt hlo), if_pos hhi]

theorem toNat_paddedByte_trailer (h : paddedLength len.toNat - 8 ≤ i) :
    (paddedByte len msg i).toNat = 8 * len.toNat / 2 ^ (8 * (7 - (i - (paddedLength len.toNat - 8)))) % 256 := by
  have hlo : len.toNat < i := Nat.lt_of_lt_of_le (lt_trailerStart _) h
  rw [paddedByte, if_neg (Nat.lt_asymm hlo), if_neg (Nat.ne_of_gt hlo), if_neg (Nat.not_lt.mpr h), toNat_be64,
    toNat_bitLength]

theorem toNat_paddedByte_trailer_add (k : Nat) :
    (paddedByte len msg (paddedLength len.toNat - 8 + k)).toNat = 8 * len.toNat / 2 ^ (8 * (7 - k)) % 256 := by
  rw [toNat_paddedByte_trailer msg (Nat.le_add_right _ k), Nat.add_sub_cancel_left]

end Stream

/-! ## Invariants of the padded stream (R155) -/

/-- The low `n` bytes of a number, the most significant first, add up to its remainder. -/
theorem sum_bigEndian_bytes (x n : Nat) :
    ((List.range n).map fun k => x / 2 ^ (8 * (n - 1 - k)) % 256 * 2 ^ (8 * (n - 1 - k))).sum = x % 2 ^ (8 * n) := by
  induction n with
  | zero => simp [Nat.mod_one]
  | succ n ih =>
    have hindex : ∀ k, n + 1 - 1 - (k + 1) = n - 1 - k := by omega
    rw [List.range_succ_eq_map, List.map_cons, List.sum_cons, List.map_map]
    simp only [Function.comp_def, Nat.succ_eq_add_one, hindex]
    rw [ih, Nat.sub_zero, Nat.add_sub_cancel, Nat.mul_succ, Nat.pow_add, Nat.mod_mul]
    ring

theorem trailer_sum (len : Word) (msg : Nat → Byte) :
    ((List.range 8).map fun k =>
      (paddedByte len msg (paddedLength len.toNat - 8 + k)).toNat * 2 ^ (8 * (7 - k))).sum = 8 * len.toNat := by
  simp only [toNat_paddedByte_trailer_add]
  have := len.isLt
  rw [sum_bigEndian_bytes (8 * len.toNat) 8, Nat.mod_eq_of_lt (by omega)]

/-- Settles O15: the trailer is a 35-bit number in eight bytes, so three of them are 0 and the fourth is below 8. -/
theorem paddedStreamInvariants : Obligations.PaddedStreamInvariants := by
  unfold Obligations.PaddedStreamInvariants
  intro len msg
  have hlen := len.isLt
  refine ⟨?whole, trailer_sum len msg, fun k hk => ?high, ?fourth, paddedByte_marker msg rfl,
    fun i hi => paddedByte_message msg hi⟩
  case whole => rw [paddedLength_eq, Nat.mul_mod_right]
  case high =>
    have hpow : 2 ^ (8 * 5) ≤ 2 ^ (8 * (7 - k)) := Nat.pow_le_pow_right (by decide) (by omega)
    apply BitVec.eq_of_toNat_eq
    rw [toNat_paddedByte_trailer_add, Nat.div_eq_of_lt (by omega)]
    rfl
  case fourth =>
    have hindex : paddedLength len.toNat - 5 = paddedLength len.toNat - 8 + 3 := by
      rw [paddedLength_eq]
      omega
    rw [hindex, toNat_paddedByte_trailer_add]
    omega

/-- Settles O16: the trailer gives the length, and below the length the stream is the message. -/
theorem paddingIsInjective : Obligations.PaddingIsInjective := by
  unfold Obligations.PaddingIsInjective
  intro len len' msg msg' hT hbytes
  have hT8 : 8 ≤ paddedLength len.toNat := Nat.le_add_left 8 _
  have htrailer : ∀ k ∈ List.range 8, paddedByte len msg (paddedLength len.toNat - 8 + k) =
      paddedByte len' msg' (paddedLength len'.toNat - 8 + k) := fun k hk => by
    have := List.mem_range.mp hk
    rw [← hT, hbytes _ (by omega)]
  have hbits : 8 * len.toNat = 8 * len'.toNat := by
    rw [← trailer_sum len msg, ← trailer_sum len' msg',
      List.map_congr_left fun k hk => congrArg (fun b : Byte => b.toNat * 2 ^ (8 * (7 - k))) (htrailer k hk)]
  obtain rfl : len = len' := BitVec.eq_of_toNat_eq (by omega)
  refine ⟨rfl, fun i hi => ?_⟩
  have hlt := lt_trailerStart len.toNat
  rw [← paddedByte_message msg hi, hbytes i (by omega), paddedByte_message msg' hi]

/-! ## The shape of the blocks (R156) -/

/-- The last block begins 56 bytes before the trailer. -/
theorem lastBlock_start (len : Nat) : 64 * (blockCount len - 1) + 56 = paddedLength len - 8 := by
  rw [blockCount_eq, paddedLength_eq]
  omega

/-- Offsets 56 to 63 of the last block are the bit length. -/
theorem toNat_sel64_lastBlock (len : Word) (msg : Nat → Byte) {j : BitVec 6} (hj : 56 ≤ j.toNat) :
    (sel64 (paddedBlock len msg (blockCount len.toNat - 1)) j).toNat =
      8 * len.toNat / 2 ^ (8 * (63 - j.toNat)) % 256 := by
  have hstart := lastBlock_start len.toNat
  have hindex : 64 * (blockCount len.toNat - 1) + j.toNat = paddedLength len.toNat - 8 + (j.toNat - 56) := by omega
  rw [sel64_paddedBlock, hindex, toNat_paddedByte_trailer_add, show 7 - (j.toNat - 56) = 63 - j.toNat by omega]

/-- Words 14 and 15 of the last block are the two halves of the bit length. -/
theorem toNat_loadWord_lastBlock (len : Word) (msg : Nat → Byte) {t : BitVec 4} (ht : 14 ≤ t.toNat) :
    (loadWord (paddedBlock len msg (blockCount len.toNat - 1)) t).toNat =
      8 * len.toNat / 2 ^ (32 * (15 - t.toNat)) % 2 ^ 32 := by
  have hbyte : ∀ k : BitVec 2, (sel64 (paddedBlock len msg (blockCount len.toNat - 1)) (blockIndex t k)).toNat =
      8 * len.toNat / 2 ^ (32 * (15 - t.toNat)) / 2 ^ (8 * (3 - k.toNat)) % 256 := fun k => by
    rw [toNat_sel64_lastBlock len msg (by rw [blockIndex_toNat]; omega), blockIndex_toNat, Nat.div_div_eq_div_mul,
      ← Nat.pow_add, show 8 * (63 - (4 * t.toNat + k.toNat)) = 32 * (15 - t.toNat) + 8 * (3 - k.toNat) by omega]
  rw [loadWord, toNat_be32, hbyte 0, hbyte 1, hbyte 2, hbyte 3]
  generalize 8 * len.toNat / 2 ^ (32 * (15 - t.toNat)) = x
  show x / 2 ^ 24 % 256 * 2 ^ 24 + x / 2 ^ 16 % 256 * 2 ^ 16 + x / 2 ^ 8 % 256 * 2 ^ 8 + x / 2 ^ 0 % 256 = x % 2 ^ 32
  omega

/-- Settles O17: each offset of a block lies in one of the four ranges of the stream. -/
theorem blockShapes : Obligations.BlockShapes := by
  unfold Obligations.BlockShapes
  intro len msg j
  have hlen := len.isLt
  have hT := paddedLength_eq len.toNat
  have hcount := blockCount_eq len.toNat
  have hsel := sel64_paddedBlock len msg
  refine ⟨fun n hn => ?message, fun hj => ?tail, fun hj => ?marker, fun hr => ⟨by omega, fun hlo hhi => ?zeros⟩,
    fun hr => ⟨by omega, fun hlo => ?zerosBefore, fun hhi => ?zerosLast⟩, toNat_sel64_lastBlock len msg, ?high, ?low⟩
  case message | tail => rw [hsel, paddedByte_message msg (by omega)]
  case marker => rw [hsel, paddedByte_marker msg (by omega)]
  case zeros | zerosBefore | zerosLast => rw [hsel, paddedByte_zero msg (by omega) (by omega)]
  case high =>
    have hhalf : 8 * len.toNat / 2 ^ 32 % 2 ^ 32 = len.toNat / 2 ^ 29 := by omega
    exact (toNat_loadWord_lastBlock len msg (t := 14) (by decide)).trans hhalf
  case low =>
    have hhalf : 8 * len.toNat / 2 ^ 0 % 2 ^ 32 = 8 * len.toNat % 2 ^ 32 := by rw [Nat.pow_zero, Nat.div_one]
    exact (toNat_loadWord_lastBlock len msg (t := 15) (by decide)).trans hhalf

/-! ## FRAME (R157) -/

theorem execFrame_of_readsAdmitted {s : State} (hlt : s.N.toNat < blockCount s.L.toNat) (hadm : readsAdmitted s) :
    execFrame s = .next { s with BLOCK := framedBlock s, SEQ := ⟨3, 0⟩ } := by
  rw [execFrame, if_neg (Nat.not_le.mpr hlt), if_pos ((frameAdmitted_iff s).mpr hadm)]
  rfl

/-- An admitted read answers the byte of the message space. -/
theorem memReadMsg_of_readsAdmitted {s : State} (hadm : readsAdmitted s) {i : Nat}
    (hi : i ∈ readsOfBlock s.L.toNat s.N.toNat) : memReadMsg s i = some (messageOf s.powerOn s.MSG i) := by
  obtain ⟨b, hb⟩ := Option.isSome_iff_exists.mp (hadm i hi)
  rw [hb, messageOf_of_memReadMsg hb]

/-- Settles O19: FRAME's block is block `N` of the padded stream, whose bytes below `L` are what its reads answer. -/
theorem frameResult : Obligations.FrameResult := by
  unfold Obligations.FrameResult
  intro s hlt hadm
  refine ⟨framedBlock s, execFrame_of_readsAdmitted hlt hadm, fun j => ?_⟩
  rw [framedBlock, sel64_paddedBlock]
  refine ⟨fun h => ?read, paddedByte_marker _, paddedByte_zero _, toNat_paddedByte_trailer _⟩
  case read =>
    have hmem := (mem_readsOfBlock s.L.toNat s.N.toNat (64 * s.N.toNat + j.toNat)).mpr ⟨by omega, by omega, h⟩
    rw [memReadMsg_of_readsAdmitted hadm hmem, paddedByte_message _ h]

end Sys2Proof.Machine

/-! PROOFS. Message schedule (spec file 42): what LOADW and EXPW write, the equations of SCHED, and that the 64
operations compute it. -/

namespace Sys2Proof.Machine

/-! ## The word LOADW forms (R181) -/

theorem blockIndex_eq_ofNat (t : BitVec 4) (k : BitVec 2) :
    blockIndex t k = BitVec.ofNat 6 (4 * t.toNat + k.toNat) := by
  rw [← blockIndex_toNat, BitVec.ofNat_toNat, BitVec.setWidth_eq]

theorem loadWord_eq_be32 (block : Vector Byte 64) (t : BitVec 4) :
    loadWord block t =
      be32 (sel64 block (BitVec.ofNat 6 (4 * t.toNat))) (sel64 block (BitVec.ofNat 6 (4 * t.toNat + 1)))
        (sel64 block (BitVec.ofNat 6 (4 * t.toNat + 2))) (sel64 block (BitVec.ofNat 6 (4 * t.toNat + 3))) := by
  simp only [loadWord, blockIndex_eq_ofNat]
  rfl

theorem exec_loadw (t : BitVec 4) (s : State) :
    exec (.loadw t) s =
      .next { s with W := upd64 s.W (t.setWidth 6) (loadWord s.BLOCK t), SEQ := loadwNext t } := by
  rw [loadwNext, ← loadwNext_eq]
  rfl

/-- Settles O23: the word written is `loadWord`, whose value is that of its four bytes. -/
theorem loadwResult : Obligations.LoadwResult := by
  unfold Obligations.LoadwResult
  intro t s
  refine ⟨_, exec_loadw t s, ?value, fun u hu => sel64_upd64_other _ _ fun e => hu ?index⟩
  case value => rw [BitVec.ofNat_toNat, sel64_upd64_same, loadWord_eq_be32, toNat_be32]
  case index => rw [← e, BitVec.toNat_setWidth_of_le (by decide)]

/-! ## The sum EXPW forms (R182) -/

/-- The spec counts back from `t` in the naturals, the model in words of six bits. -/
theorem sub_ofNat_of_le {t : BitVec 6} {n : Nat} (h : n ≤ t.toNat) :
    t - BitVec.ofNat 6 n = BitVec.ofNat 6 (t.toNat - n) := by
  rw [← BitVec.ofNat_sub_ofNat_of_le _ _ (by omega) h, BitVec.ofNat_toNat, BitVec.setWidth_eq]

theorem toNat_expandWord (w : Vector Word 64) {t : BitVec 6} (h16 : 16 ≤ t.toNat) :
    (expandWord w t).toNat =
      ((sel64 w (BitVec.ofNat 6 (t.toNat - 16))).toNat + (ssig0 (sel64 w (BitVec.ofNat 6 (t.toNat - 15)))).toNat +
        (sel64 w (BitVec.ofNat 6 (t.toNat - 7))).toNat + (ssig1 (sel64 w (BitVec.ofNat 6 (t.toNat - 2)))).toNat) %
        2 ^ 32 := by
  rw [← sub_ofNat_of_le h16, ← sub_ofNat_of_le (n := 15) (by omega), ← sub_ofNat_of_le (n := 7) (by omega),
    ← sub_ofNat_of_le (n := 2) (by omega)]
  simp only [expandWord, BitVec.toNat_add, Nat.mod_add_mod]
  rfl

theorem exec_expw {t : BitVec 6} (h16 : 16 ≤ t.toNat) (s : State) :
    exec (.expw t) s = .next { s with W := upd64 s.W t (expandWord s.W t), SEQ := expwNext t } := by
  rw [expwNext, ← expwNext_eq]
  exact if_neg (Nat.not_lt.mpr h16)

/-- Settles O24: the word written is `expandWord`, a sum modulo `2^32`. -/
theorem expwResult : Obligations.ExpwResult := by
  unfold Obligations.ExpwResult
  intro t s h16
  refine ⟨_, exec_expw h16 s, ?value, fun u hu => sel64_upd64_other _ _ hu.symm⟩
  case value => rw [sel64_upd64_same, toNat_expandWord _ h16]

/-! ## The equations of SCHED (R183) -/

theorem setWidth_four_of_lt {t : BitVec 6} (h : t.toNat < 16) :
    (t.setWidth 4).toNat = t.toNat ∧ (t.setWidth 4).setWidth 6 = t := by
  have hnat : (t.setWidth 4).toNat = t.toNat := by rw [BitVec.toNat_setWidth, Nat.mod_eq_of_lt h]
  exact ⟨hnat, BitVec.eq_of_toNat_eq (by rw [BitVec.toNat_setWidth_of_le (by decide), hnat])⟩

theorem sel64_schedule_of_lt (block : Vector Byte 64) {t : BitVec 6} (h : t.toNat < 16) :
    sel64 (schedule block) t = loadWord block (t.setWidth 4) := by
  rw [← sel64_schedule_load, (setWidth_four_of_lt h).2]

/-- Settles O25: below 16 the entry is the word LOADW forms, from 16 on the sum EXPW forms on the schedule itself. -/
theorem scheduleRecurrence : Obligations.ScheduleRecurrence := by
  unfold Obligations.ScheduleRecurrence
  intro block t
  refine ⟨fun h => ?load, fun h16 => sel64_schedule_expand block h16⟩
  case load => rw [sel64_schedule_of_lt block h, loadWord_eq_be32, (setWidth_four_of_lt h).1]

/-! ## The 64 operations in order (R180) -/

/-- The operation that writes `W[t]`. -/
def scheduleOp (t : BitVec 6) : Instr := if t.toNat < 16 then .loadw (t.setWidth 4) else .expw t

/-- The position after it. -/
def scheduleNext (t : BitVec 6) : Seq := if t.toNat < 16 then loadwNext (t.setWidth 4) else expwNext t

theorem scheduleOps_eq_map : scheduleOps = (List.range' 0 64).map fun n => scheduleOp (BitVec.ofNat 6 n) := by
  decide

/-- Where the entries before `t` are the schedule's, the operation of `t` writes the schedule's entry `t`. -/
theorem exec_scheduleOp {s : State} {t : BitVec 6}
    (h : ∀ i : BitVec 6, i.toNat < t.toNat → sel64 s.W i = sel64 (schedule s.BLOCK) i) :
    exec (scheduleOp t) s =
      .next { s with W := upd64 s.W t (sel64 (schedule s.BLOCK) t), SEQ := scheduleNext t } := by
  by_cases ht : t.toNat < 16
  · rw [scheduleOp, scheduleNext, if_pos ht, if_pos ht, exec_loadw, (setWidth_four_of_lt ht).2,
      sel64_schedule_of_lt _ ht]
  · have h16 : 16 ≤ t.toNat := Nat.le_of_not_lt ht
    rw [scheduleOp, scheduleNext, if_neg ht, if_neg ht, exec_expw h16, sel64_schedule_expand _ h16,
      expandWord_congr h16 h]

/-- The last `k` operations complete a schedule whose first `n` entries stand; with none left, `SEQ` is past them. -/
theorem execList_scheduleOp {n k : Nat} {s : State} (hnk : n + k = 64) (hseq : k = 0 → s.SEQ = ⟨5, 0⟩)
    (hW : ∀ i : BitVec 6, i.toNat < n → sel64 s.W i = sel64 (schedule s.BLOCK) i) :
    execList ((List.range' n k).map fun m => scheduleOp (BitVec.ofNat 6 m)) s =
      .next { s with W := schedule s.BLOCK, SEQ := ⟨5, 0⟩ } := by
  induction k generalizing n s with
  | zero =>
    have hdone : s.W = schedule s.BLOCK := vector64_ext fun i => hW i (by omega)
    rw [← hdone, ← hseq rfl]
    rfl
  | succ k ih =>
    obtain ⟨t, rfl⟩ : ∃ t : BitVec 6, t.toNat = n := ⟨BitVec.ofNat 6 n, Nat.mod_eq_of_lt (by omega)⟩
    have hlast : k = 0 → scheduleNext t = ⟨5, 0⟩ := fun hk => by
      obtain rfl : t = 63 := BitVec.eq_of_toNat_eq (show t.toNat = 63 by omega)
      rfl
    rw [List.range'_succ, List.map_cons, BitVec.ofNat_toNat, BitVec.setWidth_eq, execList, exec_scheduleOp hW]
    exact ih (by omega) hlast (sel64_upd64_agree hW)

/-- Settles O26: the operations from the first on, none of whose entries need stand before. -/
theorem scheduleOperationsComputeSchedule : Obligations.ScheduleOperationsComputeSchedule := by
  unfold Obligations.ScheduleOperationsComputeSchedule
  intro s
  rw [scheduleOps_eq_map]
  exact execList_scheduleOp rfl nofun nofun

end Sys2Proof.Machine

/-! PROOFS. Compression (spec file 43): what INITV, ROUND and FOLD answer, that a round can be undone, and that the
operations of one block compute COMPRESS. -/

namespace Sys2Proof.Machine

/-! ## INITV (R201) -/

theorem exec_initv (s : State) : exec .initv s = .next { s with v := varsOfVector s.H, SEQ := ⟨6, 0⟩ } := rfl

/-- Settles O27: the fields of `varsOfVector` are the eight hash words in order. -/
theorem initvResult : Obligations.InitvResult := by
  unfold Obligations.InitvResult
  exact exec_initv

/-! ## ROUND (R202 to R204) -/

theorem exec_round (t : BitVec 6) (s : State) :
    exec (.round t) s = .next { s with v := rnd s.v (sel64 K t) (sel64 s.W t), SEQ := roundNext t } := by
  rw [roundNext, ← roundNext_eq]
  rfl

theorem rotr_eq_rotateRight (x : Word) {n : Nat} (hn : n < 32) : rotr x n = x.rotateRight n := by
  rw [rotr, BitVec.rotateRight_def, Nat.mod_eq_of_lt hn]

theorem bsig0_eq_rotateRight (x : Word) : bsig0 x = x.rotateRight 2 ^^^ x.rotateRight 13 ^^^ x.rotateRight 22 := by
  rw [bsig0, rotr_eq_rotateRight x (by decide), rotr_eq_rotateRight x (by decide), rotr_eq_rotateRight x (by decide)]

theorem bsig1_eq_rotateRight (x : Word) : bsig1 x = x.rotateRight 6 ^^^ x.rotateRight 11 ^^^ x.rotateRight 25 := by
  rw [bsig1, rotr_eq_rotateRight x (by decide), rotr_eq_rotateRight x (by decide), rotr_eq_rotateRight x (by decide)]

/-- Settles O28: the answer is `rnd`, whose two sums of rotations are the library's. -/
theorem roundResult : Obligations.RoundResult := by
  unfold Obligations.RoundResult
  intro t s
  rw [exec_round, ← bsig0_eq_rotateRight, ← bsig1_eq_rotateRight]
  rfl

/-- Settles O29: six of the old variables stand in the new tuple; the new `a` then gives `T1`, and `T1` gives `d` and `h`. -/
theorem roundIsInvertible : Obligations.RoundIsInvertible := by
  unfold Obligations.RoundIsInvertible
  rintro ⟨a, b, c, d, e, f, g, h⟩ ⟨a', b', c', d', e', f', g', h'⟩ k w hrnd
  simp only [rnd, Vars.mk.injEq] at hrnd
  obtain ⟨ha, rfl, rfl, rfl, he, rfl, rfl, rfl⟩ := hrnd
  have hT1 := add_right_cancel ha
  rw [hT1] at he
  obtain rfl : d = d' := add_right_cancel he
  obtain rfl : h = h' := by simpa only [add_left_inj] using hT1
  rfl

/-! ## FOLD (R205) -/

theorem exec_fold {s : State} (hlt : s.N.toNat < blockCount s.L.toNat) :
    exec .fold s =
      .next { s with
        H := foldHash s.H s.v
        N := s.N + 1
        SEQ := if s.N.toNat + 1 < blockCount s.L.toNat then ⟨2, 0⟩ else ⟨8, 0⟩ } :=
  if_neg (Nat.not_le.mpr hlt)

/-- Settles O30: the sums of `foldHash` are words, and below the block count the counter does not wrap. -/
theorem foldResult : Obligations.FoldResult := by
  unfold Obligations.FoldResult
  intro s hlt
  refine ⟨foldHash s.H s.v, s.N + 1, exec_fold hlt, counter_succ_toNat s hlt, ?_⟩
  exact ⟨BitVec.toNat_add .., BitVec.toNat_add .., BitVec.toNat_add .., BitVec.toNat_add ..,
    BitVec.toNat_add .., BitVec.toNat_add .., BitVec.toNat_add .., BitVec.toNat_add ..⟩

/-! ## The operations of one block in order (R206) -/

theorem execList_cons_of_next {i : Instr} {is : List Instr} {s t : State} (h : exec i s = .next t) :
    execList (i :: is) s = execList is t := by
  rw [execList, h]

theorem execList_append_of_next {is js : List Instr} {s t : State} (h : execList is s = .next t) :
    execList (is ++ js) s = execList js t := by
  rw [execList_append, h]

/-- After ROUND 0 to ROUND `n` the working variables are those of `n + 1` rounds on the schedule that stands in `W`. -/
theorem execList_rounds (n : Nat) (s : State) :
    execList ((List.range (n + 1)).map fun t => .round (BitVec.ofNat 6 t)) s =
      .next { s with v := roundsFrom s.W s.v (n + 1), SEQ := roundNext (BitVec.ofNat 6 n) } := by
  induction n with
  | zero => exact execList_cons_of_next (exec_round 0 s)
  | succ n ih =>
    rw [List.range_succ, List.map_append, execList_append_of_next ih]
    exact execList_cons_of_next (exec_round _ _)

theorem execList_roundOps (s : State) :
    execList roundOps s = .next { s with v := roundsFrom s.W s.v 64, SEQ := ⟨7, 0⟩ } :=
  execList_rounds 63 s

/-- Settles O31: the four parts one after another; FOLD adds to `H` the variables 64 rounds leave from INITV's copy of it. -/
theorem compressOperationsComputeCompress : Obligations.CompressOperationsComputeCompress := by
  unfold Obligations.CompressOperationsComputeCompress
  intro s hlt
  refine ⟨roundsFrom (schedule s.BLOCK) (varsOfVector s.H) 64, s.N + 1, ?answer, counter_succ_toNat s hlt⟩
  case answer =>
    rw [compressOps, List.append_assoc, List.cons_append,
      execList_append_of_next (scheduleOperationsComputeSchedule s), execList_cons_of_next (exec_initv _),
      execList_append_of_next (execList_roundOps _)]
    exact execList_cons_of_next (exec_fold hlt)

end Sys2Proof.Machine

/-! PROOFS. Driver and serializer (spec file 44): SEED and the constants, what SERW and FINISH write, the successor
function, the host's register accesses and digest loads, that every step keeps the functional invariant, and what an
accepted START comes to. -/

namespace Sys2Proof.Machine

/-! ## SEED and the constant tables (R222, R33) -/

/-- A number below `b ^ 2` is prime as soon as no divisor below `b` is a proper one. -/
theorem prime_iff_of_lt_sq {n b : Nat} (h : n < b ^ 2) : n.Prime ↔ 2 ≤ n ∧ ∀ d < b, d ∣ n → d = 1 ∨ d = n := by
  refine ⟨fun hp => ⟨hp.two_le, fun d _ hd => (Nat.dvd_prime hp).mp hd⟩, fun ⟨h2, hdvd⟩ => ?_⟩
  by_contra hp
  have hlt : n.minFac < b := lt_of_pow_lt_pow_left' 2 ((Nat.minFac_sq_le_self (by omega) hp).trans_lt h)
  have hne : n ≠ 1 := by omega
  rcases hdvd _ hlt n.minFac_dvd with h1 | hn
  · exact hne (Nat.minFac_eq_one_iff.mp h1)
  · exact hp (hn ▸ Nat.minFac_prime hne)

/-- Filtering an initial segment lists the numbers with a property in the order in which `nth` counts them. -/
theorem nth_of_getElem?_filter_range {p : Nat → Prop} [DecidablePred p] {n k x : Nat}
    (h : ((List.range n).filter fun m => decide (p m))[k]? = some x) : Nat.nth p k = x := by
  induction n with
  | zero => cases h
  | succ n ih =>
    have hcount : ((List.range n).filter fun m => decide (p m)).length = Nat.count p n :=
      List.countP_eq_length_filter.symm
    rw [List.range_succ, List.filter_append, List.getElem?_append] at h
    split at h
    · exact ih h
    · next hk =>
      rw [List.getElem?_eq_some_iff] at h
      obtain ⟨hlt, rfl⟩ := h
      have hn : p n := by
        by_contra hn
        simp [hn] at hlt
      obtain rfl : k = Nat.count p n := by simp [hn] at hlt; omega
      simp [hn, Nat.nth_count hn]

/-- The first 64 primes. -/
def firstPrimes : Vector Nat 64 := #v[
  2, 3, 5, 7, 11, 13, 17, 19, 23, 29, 31, 37, 41, 43, 47, 53, 59, 61, 67, 71, 73, 79, 83, 89, 97, 101, 103, 107, 109, 113,
  127, 131, 137, 139, 149, 151, 157, 163, 167, 173, 179, 181, 191, 193, 197, 199, 211, 223, 227, 229, 233, 239, 241, 251,
  257, 263, 269, 271, 277, 281, 283, 293, 307, 311]

theorem filter_prime_range : ((List.range 312).filter fun n => decide n.Prime) = firstPrimes.toList := by
  have htrial : ((List.range 312).filter fun n => decide (2 ≤ n ∧ ∀ d < 18, d ∣ n → d = 1 ∨ d = n)) =
      firstPrimes.toList := by decide
  rw [← htrial]
  refine List.filter_congr fun n hn => decide_eq_decide.mpr (prime_iff_of_lt_sq ?_)
  have := List.mem_range.mp hn
  omega

theorem nth_prime_eq_firstPrimes (t : BitVec 6) : Nat.nth Nat.Prime t.toNat = sel64 firstPrimes t := by
  refine nth_of_getElem?_filter_range (n := 312) ?_
  rw [filter_prime_range]
  simp [sel64]

/-- `n * 2^32 + K[t]` is `2^32` times the cube root of the `t`-th prime, rounded down; `n` is the root's whole part. -/
theorem K_cubeRoot_bounds : ∀ t : BitVec 6, ∃ n < 7,
    (n * 2 ^ 32 + (sel64 K t).toNat) ^ 3 ≤ sel64 firstPrimes t * 2 ^ 96 ∧
    sel64 firstPrimes t * 2 ^ 96 < (n * 2 ^ 32 + (sel64 K t).toNat + 1) ^ 3 := by
  decide

theorem exec_seed (s : State) : exec .seed s = .next { s with H := IV, N := 0, SEQ := ⟨2, 0⟩ } := rfl

/-- Settles O33: the seed constants are `IV`; the primes are found by trial division, and each cube root is bounded by
computation. -/
theorem seedResultAndRoundConstants : Obligations.SeedResultAndRoundConstants := by
  unfold Obligations.SeedResultAndRoundConstants
  refine ⟨exec_seed, fun t => ?_⟩
  obtain ⟨n, -, hroot⟩ := K_cubeRoot_bounds t
  rw [nth_prime_eq_firstPrimes]
  exact ⟨n, hroot⟩

/-! ## SERW and FINISH (R232 to R234) -/

theorem exec_serw (i : BitVec 3) (s : State) :
    exec (.serw i) s = .next { s with DIG := (serializeWord i s).DIG, SEQ := serwNext i } := by
  rw [serwNext, ← serwNext_eq]
  rfl

theorem byteOf_eq_ofNat (w : Word) (k : BitVec 2) : byteOf w k = BitVec.ofNat 8 (w.toNat / 2 ^ (24 - 8 * k.toNat)) := by
  rw [byteOf, BitVec.extractLsb', Nat.shiftRight_eq_div_pow]

/-- The byte SERW `i` writes for word `i` at offset `k`. -/
theorem lookup_serializeWord_at (i : BitVec 3) (s : State) (k : BitVec 2) :
    Memory.lookup (serializeWord i s).DIG (4 * i.toNat + k.toNat) = some (byteOf (sel8 s.H i) k) := by
  have hword : (digestIndex i k).extractLsb' 2 3 = i := by revert i k; decide
  have hbyte : (digestIndex i k).extractLsb' 0 2 = k := by revert i k; decide
  have hindex : (digestIndex i k).toNat / 4 = i.toNat := by rw [digestIndex_toNat]; omega
  rw [← digestIndex_toNat, lookup_serializeWord_eq_serialByte, if_pos hindex, serialByte, hword, hbyte]

/-- Settles O34: at the four indices of the word its bytes, elsewhere what was there. -/
theorem serwResult : Obligations.SerwResult := by
  unfold Obligations.SerwResult
  intro i s
  refine ⟨_, exec_serw i s, fun k hk => ?bytes, fun j hj => ?frame⟩
  case bytes =>
    obtain ⟨b, rfl⟩ : ∃ b : BitVec 2, b.toNat = k := ⟨BitVec.ofNat 2 k, Nat.mod_eq_of_lt hk⟩
    rw [lookup_serializeWord_at, byteOf_eq_ofNat]
  case frame =>
    rw [lookup_serializeWord, if_neg (by omega), if_neg (by omega), if_neg (by omega), if_neg (by omega)]

/-- After SERW 0 to SERW `n` the first `n + 1` words of the digest stand in the digest space. -/
theorem execList_serws {n : Nat} (hn : n < 8) (s : State) :
    ∃ dig : Memory,
      execList ((List.range (n + 1)).map fun i => .serw (BitVec.ofNat 3 i)) s =
        .next { s with DIG := dig, SEQ := serwNext (BitVec.ofNat 3 n) } ∧
      ∀ j : BitVec 5, j.toNat / 4 < n + 1 → Memory.lookup dig j.toNat = some (serialByte s.H j) := by
  induction n with
  | zero =>
    refine ⟨_, execList_cons_of_next (exec_serw 0 s), fun j hj => ?_⟩
    rw [lookup_serializeWord_eq_serialByte, if_pos (by simpa using hj)]
  | succ n ih =>
    obtain ⟨dig, hexec, hdig⟩ := ih (by omega)
    rw [List.range_succ, List.map_append, execList_append_of_next hexec]
    refine ⟨_, execList_cons_of_next (exec_serw _ _), fun j hj => ?_⟩
    have hindex : (BitVec.ofNat 3 (n + 1)).toNat = n + 1 := Nat.mod_eq_of_lt hn
    rw [lookup_serializeWord_eq_serialByte, hindex]
    split
    · rfl
    · exact hdig j (by omega)

/-- Settles O35: SERW 0 to SERW 7 write all eight words. -/
theorem serializeOperationsWriteDigest : Obligations.SerializeOperationsWriteDigest := by
  unfold Obligations.SerializeOperationsWriteDigest
  intro s
  obtain ⟨dig, hexec, hdig⟩ := execList_serws (n := 7) (by decide) s
  exact ⟨dig, hexec, fun j => hdig j (by omega)⟩

theorem exec_finish (s : State) : exec .finish s = .next { s with BUSY := false, DONE := true, SEQ := ⟨0, 0⟩ } := rfl

/-- Settles O36: the flags of `finishFlags`, then `SEQ`. -/
theorem finishResult : Obligations.FinishResult := by
  unfold Obligations.FinishResult
  exact exec_finish

/-! ## The successor function (R221) -/

/-- The position after an operation of the core, where the operation alone gives it: after FOLD it depends on `N`. -/
def successor : Instr → Option Seq
  | .idle | .finish => some ⟨0, 0⟩
  | .seed => some ⟨2, 0⟩
  | .frame => some ⟨3, 0⟩
  | .loadw k => some (loadwNext k)
  | .expw k => some (expwNext k)
  | .initv => some ⟨6, 0⟩
  | .round k => some (roundNext k)
  | .serw k => some (serwNext k)
  | _ => none

theorem seq_of_successor {i : Instr} {q : Seq} {s t : State} (hd : decodeSeq s.SEQ = .ok i) (hi : successor i = some q)
    (h : exec i s = .next t) : t.SEQ = q := by
  rcases decodeSeq_ok hd with ⟨hq, rfl⟩ | ⟨-, rfl⟩ | ⟨-, rfl⟩ | ⟨k, -, rfl⟩ | ⟨k, hk, -, rfl⟩ | ⟨-, rfl⟩ |
    ⟨k, -, rfl⟩ | ⟨-, rfl⟩ | ⟨k, -, rfl⟩ | ⟨-, rfl⟩
  case inr.inr.inr.inr.inr.inr.inr.inl => cases hi
  all_goals obtain rfl := Option.some.inj hi
  · cases h; exact hq
  · cases h; rfl
  · obtain ⟨-, -, rfl⟩ := execFrame_next h; rfl
  · rw [exec_loadw] at h; cases h; rfl
  · rw [exec_expw hk] at h; cases h; rfl
  · cases h; rfl
  · rw [exec_round] at h; cases h; rfl
  · rw [exec_serw] at h; cases h; rfl
  · cases h; rfl

/-- A row of R221's table in which one position follows another. -/
theorem seq_of_coreStep {p q : Seq} {s t : State} (h : coreStep s = .next t)
    (hrow : (decodeSeq p).toOption.bind successor = some q) (hs : s.SEQ = p) : t.SEQ = q := by
  obtain ⟨i, hd, he⟩ := coreStep_next h
  subst hs
  rw [hd] at hrow
  exact seq_of_successor hd hrow he

theorem loadw_rows : ∀ k < 15,
    (decodeSeq ⟨3, BitVec.ofNat 6 k⟩).toOption.bind successor = some ⟨3, BitVec.ofNat 6 (k + 1)⟩ := by decide

theorem expw_rows : ∀ k < 63, 16 ≤ k →
    (decodeSeq ⟨4, BitVec.ofNat 6 k⟩).toOption.bind successor = some ⟨4, BitVec.ofNat 6 (k + 1)⟩ := by decide

theorem round_rows : ∀ k < 63,
    (decodeSeq ⟨6, BitVec.ofNat 6 k⟩).toOption.bind successor = some ⟨6, BitVec.ofNat 6 (k + 1)⟩ := by decide

theorem serw_rows : ∀ k < 7,
    (decodeSeq ⟨8, BitVec.ofNat 6 k⟩).toOption.bind successor = some ⟨8, BitVec.ofNat 6 (k + 1)⟩ := by decide

theorem coreStep_of_fold {s t : State} (hq : s.SEQ = ⟨7, 0⟩) (h : coreStep s = .next t) :
    t.N.toNat = s.N.toNat + 1 ∧ t.SEQ = if s.N.toNat + 1 < blockCount s.L.toNat then ⟨2, 0⟩ else ⟨8, 0⟩ := by
  rw [coreStep_of_decodeSeq (i := .fold) (hq ▸ rfl)] at h
  obtain ⟨hlt, rfl⟩ := execFold_next h
  exact ⟨counter_succ_toNat s hlt, rfl⟩

/-- Settles O37: each row with one successor is decided, and FOLD's two are those of `coreStep_of_fold`. -/
theorem successorFunction : Obligations.SuccessorFunction := by
  unfold Obligations.SuccessorFunction
  intro s t h
  have row {p q : Seq} (hrow : (decodeSeq p).toOption.bind successor = some q) : s.SEQ = p → t.SEQ = q :=
    seq_of_coreStep h hrow
  refine ⟨row rfl, row rfl, row rfl, fun k hk => row (loadw_rows k hk), row rfl, fun k h16 hk => row (expw_rows k hk h16),
    row rfl, row rfl, fun k hk => row (round_rows k hk), row rfl, fun hq => ?fold, fun k hk => row (serw_rows k hk),
    row rfl, row rfl⟩
  case fold =>
    obtain ⟨hN, hnext⟩ := coreStep_of_fold hq h
    exact ⟨hN, fun hmore => by rw [hnext, if_pos hmore], fun hlast => by rw [hnext, if_neg (by omega)]⟩

/-! ## The host's accesses (R238 to R243) -/

/-- Settles O32: `exec` of these accesses, by their definition. -/
theorem inertAccesses : Obligations.InertAccesses := by
  unfold Obligations.InertAccesses
  exact fun s d reg => ⟨rfl, rfl, rfl, rfl⟩

/-- Settles O39: `exec` of WRLEN and RDLEN, by their definition. -/
theorem lengthRegister : Obligations.LengthRegister := by
  unfold Obligations.LengthRegister
  exact fun s x d => ⟨rfl, rfl, rfl⟩

/-- Settles O40: the premises about the bindings are those the model computes. -/
theorem startIsAccepted : Obligations.StartIsAccepted := by
  unfold Obligations.StartIsAccepted
  intro d s hd hidle hpermits hapart
  have hoverlap : launchOverlaps s = false := Bool.eq_false_iff.mpr fun h => by
    obtain ⟨i, j, hi, hj, hshare⟩ := (launchOverlaps_iff s).mp h
    obtain ⟨a, hmsg, hdig⟩ := (sharesByte_iff s i j).mp hshare
    exact hapart i j a hi hj hmsg hdig
  exact exec_wrctrl_of_launchAllowed hd hidle ⟨(digWritable_iff s).mpr hpermits, hoverlap⟩

/-- Settles O41: the test of WRCTRL fails, by the START bit or by BUSY. -/
theorem startIsIgnored : Obligations.StartIsIgnored := by
  unfold Obligations.StartIsIgnored
  intro d s h
  have hno : ¬(startBit d && !s.BUSY) = true := by
    rw [Bool.and_eq_true, startBit_iff]
    rintro ⟨hodd, hidle⟩
    rcases h with heven | hbusy
    · omega
    · simp [hbusy] at hidle
  exact if_neg hno

theorem toNat_statusWord (s : State) : (statusWord s).toNat = 2 * s.DONE.toNat + s.BUSY.toNat := by
  unfold statusWord
  cases s.DONE <;> cases s.BUSY <;> rfl

/-- Settles O43: the word's value, and that 3 would take both flags. -/
theorem statusRead : Obligations.StatusRead := by
  unfold Obligations.StatusRead
  intro d s
  refine ⟨statusWord s, rfl, toNat_statusWord s, fun hflags => ?_⟩
  revert hflags
  unfold flagsExclusive statusWord
  cases s.DONE <;> cases s.BUSY <;> decide

theorem step_of_turns_loadDig {s : State} {j : BitVec 5} {rest : List Turn} (h : s.turns = .loadDig j :: rest) :
    step s = .next (hostLoadDig j { s with turns := rest }) := by
  simp [step, h]

/-- With `DONE = 1` a load of an unmarked byte returns it (R303). -/
theorem hostLoadDig_of_done {s : State} {j : BitVec 5} {b : Byte} (hD : s.DONE = true)
    (hmark : s.digTaint.getLsbD j.toNat = false) (hb : Memory.lookup s.DIG j.toNat = some b) :
    hostLoadDig j s = { s with loadData := b } := by
  have hvalid : validDigestByte s j = some b := by rw [validDigestByte, hD, hmark]; exact hb
  rw [hostLoadDig, hvalid]

/-- Settles O45: a load by `hostLoadDig_eq`, and of a valid byte by `hostLoadDig_of_done`. -/
theorem hostDigestLoad : Obligations.HostDigestLoad := by
  unfold Obligations.HostDigestLoad
  intro s j rest ht
  rw [step_of_turns_loadDig ht]
  refine ⟨⟨_, _, congrArg _ (hostLoadDig_eq j _)⟩, fun b hD hmark hb => ?_⟩
  rw [hostLoadDig_of_done (s := { s with turns := rest }) hD hmark hb]

/-! ## The functional invariant under every interleaving (R225 (5), R244) -/

section Interleaving

variable {s t : State}

/-- At IDLE the functional invariant asks nothing. -/
theorem tracksFunction_of_idle (hq : s.SEQ.uop = 0) : tracksFunction s := by
  rw [tracksFunction, hq]
  exact fun _ => trivial

theorem eq_allOnes_of_getLsbD {x : BitVec 32} (h : ∀ k, k < 32 → x.getLsbD k = true) : x = BitVec.allOnes 32 :=
  BitVec.eq_of_getLsbD_eq fun k hk => by rw [h k hk, BitVec.getLsbD_allOnes, decide_eq_true hk]

/-- The invariant speaks of the message below the length and of the unmarked digest bytes only: what leaves these and the
hidden state, and takes no mark away, keeps it. -/
theorem tracksFunction_of_agree (hq : t.SEQ = s.SEQ) (hH : t.H = s.H) (hv : t.v = s.v) (hW : t.W = s.W)
    (hB : t.BLOCK = s.BLOCK) (hL : t.L = s.L) (hN : t.N = s.N)
    (hmsg : ∀ i, i < s.L.toNat → message t i = message s i)
    (hmark : ∀ k, k < 32 → s.digTaint.getLsbD k = true → t.digTaint.getLsbD k = true)
    (hdig : ∀ k, k < 32 → t.digTaint.getLsbD k = false → Memory.lookup t.DIG k = Memory.lookup s.DIG k)
    (hfun : tracksFunction s) : tracksFunction t := by
  intro hm
  have hm' : s.digTaint ≠ BitVec.allOnes 32 := fun e => hm <| eq_allOnes_of_getLsbD fun k hk =>
    hmark k hk (by rw [e, BitVec.getLsbD_allOnes, decide_eq_true hk])
  have hhash : hashAfter t.L (message t) = hashAfter s.L (message s) := by rw [hL, hashAfter_congr hmsg]
  have hfinal : finalHash t.L (message t) = finalHash s.L (message s) := by rw [finalHash, finalHash, hhash, hL]
  have hblock : currentBlock t = currentBlock s := by rw [currentBlock, currentBlock, hL, hN, paddedBlock_congr hmsg]
  have hsched (n : Nat) : scheduleUpTo t n ↔ scheduleUpTo s n := by rw [scheduleUpTo, scheduleUpTo, hW, hblock]
  have hdigest (n : Nat) (h : digestUpTo s n) : digestUpTo t n := fun j hj hunmarked => by
    have hunmarked' : s.digTaint.getLsbD j.toNat = false :=
      Bool.eq_false_iff.mpr fun e => by simp [hmark _ j.isLt e] at hunmarked
    rw [hdig _ j.isLt hunmarked, h j hj hunmarked', hL, sha256Byte_congr hmsg]
  have hold := hfun hm'
  rw [hq, hH, hv, hB, hN, hhash, hfinal, hblock]
  simp only [hsched]
  revert hold
  split
  -- SERW and FINISH, where the digest space comes in
  case h_7 | h_8 => exact fun ⟨hH, hD⟩ => ⟨hH, hdigest _ hD⟩
  all_goals exact id

/-- Off IDLE the core is busy: a store to the digest buffer marks the byte. -/
theorem hostStoreDig_keeps_tracksFunction (j : BitVec 5) (b : Byte) (hinv : sequencerInv s) (hfun : tracksFunction s) :
    tracksFunction (hostStoreDig j b s) := by
  by_cases h0 : s.SEQ.uop = 0
  · exact tracksFunction_of_idle h0
  obtain ⟨-, hB, -⟩ := (sequencerInv_iff_of_ne_idle h0).mp hinv
  have hmark (k : Nat) := getLsbD_hostStoreDig j b s k
  refine tracksFunction_of_agree (s := s) rfl rfl rfl rfl rfl rfl rfl (fun _ _ => rfl) (fun k _ hk => ?marks)
    (fun k _ hk => ?digest) hfun
  case marks => rw [hmark, hB, hk, ite_self]
  case digest =>
    refine lookup_write_other _ b fun e => ?_
    rw [hmark, if_pos e, hB] at hk
    cases hk

/-- A store to the message below `L` while the core is busy marks every byte; any other leaves the message. -/
theorem hostStoreMsg_keeps_tracksFunction (i : BitVec 32) (b : Byte) (hinv : sequencerInv s) (hfun : tracksFunction s) :
    tracksFunction (hostStoreMsg i b s) := by
  by_cases h0 : s.SEQ.uop = 0
  · exact tracksFunction_of_idle (by simpa using h0)
  obtain ⟨-, hB, -⟩ := (sequencerInv_iff_of_ne_idle h0).mp hinv
  have hmark {k : Nat} (hk : k < 32) := getLsbD_hostStoreMsg i b s hk
  by_cases hi : i.toNat < s.L.toNat
  · refine fun hm => absurd (eq_allOnes_of_getLsbD fun k hk => ?_) hm
    simp [hmark hk, hB, hi]
  refine tracksFunction_of_agree (s := s) (by simp) (by simp) (by simp) (by simp) (by simp) (by simp) (by simp)
    (fun k hk => ?message) (fun k hk h => ?marks) (fun k hk h => ?digest) hfun
  case message =>
    have hne : i.toNat ≠ k := by omega
    simp [message, messageOf, lookup_write_other _ b hne]
  case marks => rw [hmark hk, hB, h, Bool.or_true, ite_self]
  case digest =>
    rw [lookup_hostStoreMsg, if_neg]
    rintro ⟨-, hs⟩
    rw [hmark hk, if_pos hs, hB] at h
    cases h

/-- Settles O56: the core's turns by position; an accepted START and the reset leave positions at which nothing is asked;
the host's stores mark what they put out of line. -/
theorem stepKeepsFunctionalInvariant : Obligations.StepKeepsFunctionalInvariant := by
  unfold Obligations.StepKeepsFunctionalInvariant
  intro s t hinv hfun h
  rcases step_next h with ⟨rest, i, -, hd, he⟩ | ⟨i, turn, rest, -, hi, he⟩ | ⟨turn, rest, -, rfl⟩ |
    ⟨i, b, rest, -, rfl⟩ | ⟨j, rest, -, rfl⟩ | ⟨j, b, rest, -, rfl⟩ | ⟨rest, -, rfl⟩
  · exact coreTurn_keeps_tracksFunction (s := { s with turns := rest }) hfun hd he
  · rcases hostAccess_cases hi he with ⟨-, -, rfl⟩ | ⟨x, y, rfl⟩
    · exact fun _ => trivial
    · exact hfun
  · exact hfun
  · exact hostStoreMsg_keeps_tracksFunction (s := { s with turns := rest }) i b hinv hfun
  · rw [hostLoadDig_eq]
    exact hfun
  · exact hostStoreDig_keeps_tracksFunction (s := { s with turns := rest }) j b hinv hfun
  · exact fun _ => trivial

end Interleaving

/-! ## The trace of an invocation (R223, R224) -/

/-- From position `q` on, each operation of the list is the one `SEQ` names when its turn comes; after FOLD the position is
not fixed by the operation, so nothing may follow it. -/
def follows : Seq → List Instr → Bool
  | _, [] => true
  | q, i :: is =>
    decide (decodeSeq q = .ok i) &&
      match successor i with
      | some q' => follows q' is
      | none => is.isEmpty

theorem execList_cons_next {i : Instr} {is : List Instr} {s t : State} (h : execList (i :: is) s = .next t) :
    ∃ u, exec i s = .next u ∧ execList is u = .next t := by
  unfold execList at h
  cases hi : exec i s with
  | next u => exact ⟨u, rfl, by rwa [hi] at h⟩
  | fault r => rw [hi] at h; cases h
  | refused r => rw [hi] at h; cases h

theorem traceOf_succ {i : Instr} {s t : State} (n : Nat) (hd : decodeSeq s.SEQ = .ok i) (h : exec i s = .next t) :
    traceOf (n + 1) s = i :: traceOf n t := by
  simp only [traceOf, currentOperation, hd, h]

/-- Operations that follow one another from `SEQ` are the ones the core's turns execute. -/
theorem traceOf_of_execList {is : List Instr} {s t : State} (n : Nat) (hf : follows s.SEQ is = true)
    (h : execList is s = .next t) : traceOf (is.length + n) s = is ++ traceOf n t := by
  induction is generalizing s with
  | nil => cases h; simp
  | cons i is ih =>
    obtain ⟨u, hi, his⟩ := execList_cons_next h
    rw [follows, Bool.and_eq_true, decide_eq_true_eq] at hf
    obtain ⟨hd, hrest⟩ := hf
    have htail : traceOf (is.length + n) u = is ++ traceOf n t := by
      split at hrest
      · next q hq => exact ih (by rwa [seq_of_successor hd hq hi]) his
      · obtain rfl := List.isEmpty_iff.mp hrest
        cases his
        simp
    rw [List.length_cons, Nat.add_right_comm, traceOf_succ _ hd hi, htail, List.cons_append]

theorem readsAdmitted_of_messageReadable {s : State} (h : messageReadable s) : readsAdmitted s :=
  fun i hi => h i ((mem_readsOfBlock _ _ _).mp hi).2.2

/-- Which reads are admitted is a matter of the length and of MSG_BINDING (R61). -/
theorem messageReadable_congr {s t : State} (hL : t.L = s.L) (hb : t.msgBinding = s.msgBinding) :
    messageReadable t ↔ messageReadable s := by
  simp only [messageReadable, isSome_memReadMsg, hL, hb]

/-- From FRAME the core executes the 131 operations of one block. -/
theorem traceOf_block {s : State} (hq : s.SEQ = ⟨2, 0⟩) (hlt : s.N.toNat < blockCount s.L.toNat)
    (hread : messageReadable s) :
    ∃ t : State,
      (∀ n, traceOf (131 + n) s = .frame :: compressOps ++ traceOf n t) ∧
      t.SEQ = (if s.N.toNat + 1 < blockCount s.L.toNat then ⟨2, 0⟩ else ⟨8, 0⟩) ∧
      t.N.toNat = s.N.toNat + 1 ∧ t.L = s.L ∧ t.msgBinding = s.msgBinding := by
  have hframe : exec .frame s = _ := execFrame_of_readsAdmitted hlt (readsAdmitted_of_messageReadable hread)
  obtain ⟨v, N, hcompress, hN⟩ := compressOperationsComputeCompress
    { s with BLOCK := framedBlock s, SEQ := ⟨3, 0⟩ } hlt
  have hfollows : follows s.SEQ (.frame :: compressOps) = true := by rw [hq]; decide
  exact ⟨_, fun n => traceOf_of_execList n hfollows ((execList_cons_of_next hframe).trans hcompress), rfl, hN, rfl, rfl⟩

/-- From FRAME with `m + 1` blocks to come the core executes the operations of all of them and stands at SERW 0. -/
theorem traceOf_blocks {m : Nat} {s : State} (hq : s.SEQ = ⟨2, 0⟩) (hm : s.N.toNat + (m + 1) = blockCount s.L.toNat)
    (hread : messageReadable s) :
    ∃ t : State, (∀ n, traceOf (131 * (m + 1) + n) s = blockOps (m + 1) ++ traceOf n t) ∧ t.SEQ = ⟨8, 0⟩ := by
  induction m generalizing s with
  | zero =>
    obtain ⟨t, htrace, hnext, -⟩ := traceOf_block hq (by omega) hread
    rw [if_neg (by omega)] at hnext
    exact ⟨t, fun n => by simpa [blockOps] using htrace n, hnext⟩
  | succ m ih =>
    obtain ⟨u, htrace, hnext, hN, hL, hb⟩ := traceOf_block hq (by omega) hread
    rw [if_pos (by omega)] at hnext
    obtain ⟨t, hrest, hlast⟩ := ih hnext (by rw [hN, hL]; omega) ((messageReadable_congr hL hb).mpr hread)
    refine ⟨t, fun n => ?_, hlast⟩
    rw [show 131 * (m + 1 + 1) + n = 131 + (131 * (m + 1) + n) by omega, htrace, hrest, ← List.append_assoc]
    rfl

/-- From SERW 0 the core executes the eight SERW and FINISH. -/
theorem traceOf_output {s : State} (hq : s.SEQ = ⟨8, 0⟩) : traceOf 9 s = serializeOps ++ [.finish] := by
  obtain ⟨dig, hserialize, -⟩ := serializeOperationsWriteDigest s
  have hexec : execList (serializeOps ++ [.finish]) s = _ :=
    (execList_append_of_next hserialize).trans (execList_cons_of_next (exec_finish _))
  have hfollows : follows s.SEQ (serializeOps ++ [.finish]) = true := by rw [hq]; decide
  exact (traceOf_of_execList 0 hfollows hexec).trans (List.append_nil _)

theorem length_blockOps (n : Nat) : (blockOps n).length = 131 * n := by
  induction n with
  | zero => rfl
  | succ n ih =>
    have hblock : (Instr.frame :: compressOps).length = 131 := rfl
    rw [blockOps, List.length_append, ih, hblock]
    omega

/-- Settles O58: SEED, the blocks one after another, and the output. -/
theorem invocationTraceIsExact : Obligations.InvocationTraceIsExact := by
  unfold Obligations.InvocationTraceIsExact
  intro s hq hread
  obtain ⟨m, hm⟩ := Nat.exists_eq_add_of_lt (blockCount_pos s.L.toNat)
  rw [Nat.zero_add] at hm
  constructor
  case left =>
    obtain ⟨t, hblocks, hlast⟩ := traceOf_blocks (s := { s with H := IV, N := 0, SEQ := ⟨2, 0⟩ }) rfl
      ((Nat.zero_add _).trans hm.symm) hread
    rw [hm, show 10 + 131 * (m + 1) = 131 * (m + 1) + 9 + 1 by omega, traceOf_succ _ (hq ▸ rfl) (exec_seed s), hblocks,
      traceOf_output hlast, invocationOps, hm, List.cons_append, List.cons_append, List.append_assoc]
  case right =>
    have houtput : (serializeOps ++ [Instr.finish]).length = 9 := rfl
    rw [invocationOps, List.append_assoc, List.length_append, houtput, List.length_cons, length_blockOps]
    omega

/-! ## The function of the invocation (R236, R244) -/

/-- Settles O59: the run of `run_of_start`, from the state that has latched the length and left the message as it was. -/
theorem invocationComputesSha256 : Obligations.InvocationComputesSha256 := by
  unfold Obligations.InvocationComputesSha256
  intro s d hturns hd hidle hlaunch hread
  obtain ⟨t, hrun, hend⟩ := run_of_start hturns hd hidle hlaunch hread
  exact ⟨t, hrun, hend.ended, hend.MSG, hend.LEN, hend.digest⟩

end Sys2Proof.Machine

/-! PROOFS. Reset and hazards (spec file 70): the core's turn answers (R311), and what a launch without its premises, a
register access while busy, and a store to the digest buffer do (R300 to R305). -/

namespace Sys2Proof.Machine

/-! ## Progress of the core (R311) -/

/-- Settles O38: IDLE by its definition; a legal position names an operation, which `exec_answers` says answers. -/
theorem coreIsEnabled : Obligations.CoreIsEnabled := by
  unfold Obligations.CoreIsEnabled
  refine ⟨fun s => rfl, fun s hinv hread => ?_⟩
  obtain ⟨i, hd⟩ := decodeSeq_of_legalSeq hinv.1
  have hframe (hq : s.SEQ = ⟨2, 0⟩) : readsAdmitted s := hread (congrArg Seq.uop hq)
  rw [coreStep_of_decodeSeq hd]
  exact exec_answers hinv hframe hd

/-! ## Launches and register accesses (R300, R302, R305) -/

/-- A START on an idle core comes to the launch premises. -/
theorem exec_wrctrl_of_idle {d : Word} {s : State} (hd : d.toNat % 2 = 1) (hidle : s.BUSY = false) :
    exec (.wrctrl d) s =
      if !digWritable s then .refused .digestNotWritable
      else if launchOverlaps s then .refused .buffersOverlap
      else .next (acceptStart s) :=
  if_pos (by rw [(startBit_iff d).mpr hd, hidle]; rfl)

/-- Settles O42: an index without permission, or a shared address, fails the premise the model computes. -/
theorem forbiddenLaunchIsRefused : Obligations.ForbiddenLaunchIsRefused := by
  unfold Obligations.ForbiddenLaunchIsRefused
  intro d s hd hidle
  rw [exec_wrctrl_of_idle hd hidle]
  refine ⟨fun j hj hforbidden => ?notWritable, fun hpermits i j a hi hj hmsg hdig => ?overlap⟩
  case notWritable =>
    have hwritable : digWritable s = false := Bool.eq_false_iff.mpr fun h => by
      simp [(digWritable_iff s).mp h j hj] at hforbidden
    simp [hwritable]
  case overlap =>
    have hwritable : digWritable s = true := (digWritable_iff s).mpr hpermits
    have hoverlap : launchOverlaps s = true :=
      (launchOverlaps_iff s).mpr ⟨i, j, hi, hj, (sharesByte_iff s i j).mpr ⟨a, hmsg, hdig⟩⟩
    simp [hwritable, hoverlap]

/-- Settles O44: a START is ignored while the core is busy, and every other access answers whether it is busy or not. -/
theorem hostAccessWhileBusy : Obligations.HostAccessWhileBusy := by
  unfold Obligations.HostAccessWhileBusy
  intro i s hi hB
  cases i
  case wrctrl d => exact ⟨_, _, startIsIgnored d s (.inr hB)⟩
  case rdctrl | rdstatus | wrstatus | wrlen | rdlen | rdrsvd | wrrsvd => exact ⟨_, _, rfl⟩
  all_goals cases hi

/-! ## The host's store to its digest buffer (R303) -/

theorem step_of_turns_storeDig {s : State} {j : BitVec 5} {b : Byte} {rest : List Turn}
    (h : s.turns = .storeDig j b :: rest) : step s = .next (hostStoreDig j b { s with turns := rest }) := by
  simp [step, h]

/-- The stored byte stands at `j`, marked exactly while the core is busy. -/
theorem hostStoreDig_same (j : BitVec 5) (b : Byte) (s : State) :
    Memory.lookup (hostStoreDig j b s).DIG j.toNat = some b ∧ (hostStoreDig j b s).digTaint.getLsbD j.toNat = s.BUSY :=
  ⟨lookup_write_same _ _ _, by rw [getLsbD_hostStoreDig, if_pos rfl]⟩

/-- With `DONE = 1` and the core idle, a load returns what the host has just stored. -/
theorem hostLoadDig_hostStoreDig {j : BitVec 5} {b : Byte} {s : State} (hD : s.DONE = true) (hidle : s.BUSY = false) :
    hostLoadDig j (hostStoreDig j b s) = { hostStoreDig j b s with loadData := b } := by
  obtain ⟨hbyte, hmark⟩ := hostStoreDig_same j b s
  exact hostLoadDig_of_done hD (hmark.trans hidle) hbyte

/-- Settles O47: the store by `hostStoreDig_same` and `hostStoreDig_other`; the load then finds an unmarked byte. -/
theorem hostDigestStore : Obligations.HostDigestStore := by
  unfold Obligations.HostDigestStore
  intro s j b rest ht
  have hstore := step_of_turns_storeDig ht
  obtain ⟨hbyte, hmark⟩ := hostStoreDig_same j b s
  refine ⟨(hostStoreDig j b s).DIG, (hostStoreDig j b s).digTaint, hstore, hbyte, hmark,
    fun k hk => hostStoreDig_other b hk.symm, fun rest' hrest hD hidle => ?readBack⟩
  case readBack =>
    subst hrest
    have hload := step_of_turns_loadDig (s := hostStoreDig j b { s with turns := .loadDig j :: rest' }) rfl
    rw [run_succ 1 hstore, run_succ 0 hload]
    exact congrArg _ (hostLoadDig_hostStoreDig (s := { s with turns := rest' }) hD hidle)

end Sys2Proof.Machine

/-! PROOFS. The schedule functions bit by bit (spec file 40), FRAME and FOLD past the last block (spec files 41 and 43), and
the external reset (spec file 70). -/

namespace Sys2Proof.Machine

/-! ## The schedule functions (R123, R129, R130) -/

/-- R123 bit by bit: a bit that would come from above the word is zero. -/
theorem getLsbD_shr (x : Word) (n i : Nat) : (shr x n).getLsbD i = (decide (i + n < 32) && x.getLsbD (i + n)) := by
  rw [shr, BitVec.getLsbD_ushiftRight, Nat.add_comm n i]
  by_cases hin : i + n < 32
  case pos => rw [decide_eq_true hin, Bool.true_and]
  case neg => rw [decide_eq_false hin, Bool.false_and, BitVec.getLsbD_of_ge x _ (Nat.le_of_not_lt hin)]

/-- Settles O11: a bit of each of the two rotations and of the shift. -/
theorem smallSigmaFunctionsBitwise : Obligations.SmallSigmaFunctionsBitwise := by
  unfold Obligations.SmallSigmaFunctionsBitwise
  intro x i hi
  have hrotr : ∀ n ≤ 32, (rotr x n).getLsbD i = x.getLsbD ((i + n) % 32) := fun n hn => getLsbD_rotr x hn hi
  constructor
  case left =>
    rw [ssig0, BitVec.getLsbD_xor, BitVec.getLsbD_xor, hrotr 7 (by decide), hrotr 18 (by decide), getLsbD_shr]
  case right =>
    rw [ssig1, BitVec.getLsbD_xor, BitVec.getLsbD_xor, hrotr 17 (by decide), hrotr 19 (by decide), getLsbD_shr]

/-! ## Past the last block (R29, R157, R205) -/

theorem execFrame_of_blockCount_le {s : State} (hle : blockCount s.L.toNat ≤ s.N.toNat) :
    execFrame s = .refused .blockBeyondLast :=
  if_pos hle

theorem execFold_of_blockCount_le {s : State} (hle : blockCount s.L.toNat ≤ s.N.toNat) :
    execFold s = .refused .blockBeyondLast :=
  if_pos hle

/-- Settles O21: both operations first ask whether block `N` is one of the message's. -/
theorem blockPastTheLastIsRefused : Obligations.BlockPastTheLastIsRefused := by
  unfold Obligations.BlockPastTheLastIsRefused
  intro s hle
  exact ⟨execFrame_of_blockCount_le hle, execFold_of_blockCount_le hle⟩

/-! ## The external reset (R290) -/

theorem step_of_turns_reset {s : State} {rest : List Turn} (h : s.turns = .reset :: rest) :
    step s = .next (applyReset { s with turns := rest }) := by
  simp [step, h]

/-- Settles O48: the free values of `applyReset` are the witnesses. -/
theorem resetTurn : Obligations.ResetTurn := by
  unfold Obligations.ResetTurn
  intro s rest ht
  exact ⟨_, _, _, _, _, _, step_of_turns_reset ht⟩

end Sys2Proof.Machine
